-- ==== Sys2Proof/Word.lean ====
section
/-! DEFINITION. The word types of the core: bytes (00_scope.md R14), 16-bit fields and offsets, 32-bit words. -/

namespace Sys2Proof

/-- A byte is 8 bits (00_scope.md R14). -/
abbrev Byte := BitVec 8

/-- A 16-bit field: an offset, a count, a type, a class, a data length (00_scope.md R13). -/
abbrev Half := BitVec 16

/-- A 32-bit word: a command word, TTL, VAL (30_encoding.md R63, 10_state.md R26, R28). -/
abbrev Word := BitVec 32

end Sys2Proof
end

