-- ==== Sys2Proof/Syntax.lean ====
section
/-! DEFINITION. The twelve commands of the core (30_encoding.md R70), one constructor per row of the opcode table. -/

namespace Sys2Proof

/-- Field S of an offset command (30_encoding.md R67): where the offset comes from. -/
inductive OffsetSource where
  /-- S = 0: the immediate IMM16. -/
  | imm
  /-- S = 1: the NEXT register. -/
  | next
  deriving DecidableEq, Repr

/-- A command. The three offset commands (R67) carry S and IMM16, the others carry no operand (R69). -/
inductive Instr where
  /-- HDR_DEC, decode header (41_header.md R91). -/
  | hdrDec (src : OffsetSource) (imm16 : Half)
  /-- HDR_ENC, encode header (41_header.md R92). -/
  | hdrEnc
  /-- FLG_UNPACK, flag extraction (41_header.md R93). -/
  | flgUnpack
  /-- FLG_PACK, flag packing (41_header.md R94). -/
  | flgPack
  /-- Q_DEC, decode question (42_question.md R103). -/
  | qDec (src : OffsetSource) (imm16 : Half)
  /-- Q_ENC, encode question (42_question.md R104). -/
  | qEnc
  /-- Q_NAME, read the question name as dotted text (42_question.md R105). -/
  | qName
  /-- RR_CONS, construct an address record (43_record.md R113). -/
  | rrCons
  /-- RR_ENC, encode a resource record (43_record.md R114). -/
  | rrEnc
  /-- BE_GET16, read a big-endian 16-bit integer (44_marshal.md R116). -/
  | beGet16 (src : OffsetSource) (imm16 : Half)
  /-- BE_PUT16, write a big-endian 16-bit integer (44_marshal.md R117). -/
  | bePut16
  /-- BE_PUT32, write a big-endian 32-bit integer (44_marshal.md R118). -/
  | bePut32
  deriving DecidableEq, Repr

end Sys2Proof
end

