-- ==== Sys2Proof/WellFormed.lean ====
section
/-! DEFINITION. Which commands have an encoding: an offset command with S = 1 has IMM16 = 0 (30_encoding.md R68, R72 clause 4). -/

namespace Sys2Proof

/-- The operand of an offset command is well formed: with S = 1, IMM16 must be 0 (30_encoding.md R68). -/
def offsetWellFormed : OffsetSource → Half → Bool
  | .imm, _ => true
  | .next, imm16 => imm16 == 0

/-- A command is well formed when some legal command word encodes it. -/
def Instr.wellFormed : Instr → Bool
  | .hdrDec src imm16 => offsetWellFormed src imm16
  | .hdrEnc => true
  | .flgUnpack => true
  | .flgPack => true
  | .qDec src imm16 => offsetWellFormed src imm16
  | .qEnc => true
  | .qName => true
  | .rrCons => true
  | .rrEnc => true
  | .beGet16 src imm16 => offsetWellFormed src imm16
  | .bePut16 => true
  | .bePut32 => true

end Sys2Proof
end

