-- ==== Sys2Proof/Decode.lean ====
section
/-! DEFINITION. The command word (30_encoding.md Part A): its fields, the decoder with the four reasons for refusing a word,
the encoder, and the assembler's lines (R82, R83). -/

namespace Sys2Proof

/-- Why a word is illegal: the clauses of 30_encoding.md R72, in their order. -/
inductive IllegalWord where
  /-- Clause 1: OPC is not one of the twelve values of R70. -/
  | unknownOpcode
  /-- Clause 2: RES is not 0. -/
  | reservedNonzero
  /-- Clause 3: S or IMM16 is not 0 in a command that is no offset command. -/
  | operandNonzero
  /-- Clause 4: an offset command with S = 1 and IMM16 not 0. -/
  | immediateWithNext
  deriving DecidableEq, Repr

/-- Field OPC, bits 31:24 (R64). -/
def opcField (w : Word) : Byte := w.extractLsb' 24 8

/-- Field RES, bits 23:17 (R64). -/
def resField (w : Word) : BitVec 7 := w.extractLsb' 17 7

/-- Field S, bit 16 (R64). -/
def sField (w : Word) : BitVec 1 := w.extractLsb' 16 1

/-- Field IMM16, bits 15:0 (R64). -/
def imm16Field (w : Word) : Half := w.extractLsb' 0 16

/-- The operand part of an offset command (R67, R68, R72 clause 4). -/
def decodeOffset (make : OffsetSource → Half → Instr) (s : BitVec 1) (imm16 : Half) : Except IllegalWord Instr :=
  if s = 0 then .ok (make .imm imm16)
  else if imm16 = 0 then .ok (make .next 0)
  else .error .immediateWithNext

/-- The operand part of every other command (R69, R72 clause 3). -/
def decodePlain (i : Instr) (s : BitVec 1) (imm16 : Half) : Except IllegalWord Instr :=
  if s = 0 ∧ imm16 = 0 then .ok i else .error .operandNonzero

/-- The opcode map (R70): what the operand part of each OPC value decodes to, none where R70 lists no command. -/
def opcodeRow (opc : Byte) : Option (BitVec 1 → Half → Except IllegalWord Instr) :=
  match opc.toNat with
  | 0x01 => some (decodeOffset .hdrDec)
  | 0x02 => some (decodePlain .hdrEnc)
  | 0x03 => some (decodePlain .flgUnpack)
  | 0x04 => some (decodePlain .flgPack)
  | 0x10 => some (decodeOffset .qDec)
  | 0x11 => some (decodePlain .qEnc)
  | 0x12 => some (decodePlain .qName)
  | 0x20 => some (decodePlain .rrCons)
  | 0x21 => some (decodePlain .rrEnc)
  | 0x30 => some (decodeOffset .beGet16)
  | 0x31 => some (decodePlain .bePut16)
  | 0x32 => some (decodePlain .bePut32)
  | _ => none

/-- Decode a command word, total: a command, or the first clause of R72 that makes the word illegal. -/
def decode (w : Word) : Except IllegalWord Instr :=
  match opcodeRow (opcField w) with
  | none => .error .unknownOpcode
  | some row => if resField w = 0 then row (sField w) (imm16Field w) else .error .reservedNonzero

/-- The command a word encodes, none where the word is illegal. -/
def decode? (w : Word) : Option Instr := (decode w).toOption

/-- The OPC value of a command (R70). -/
def Instr.opc : Instr → Byte
  | .hdrDec _ _ => 0x01
  | .hdrEnc => 0x02
  | .flgUnpack => 0x03
  | .flgPack => 0x04
  | .qDec _ _ => 0x10
  | .qEnc => 0x11
  | .qName => 0x12
  | .rrCons => 0x20
  | .rrEnc => 0x21
  | .beGet16 _ _ => 0x30
  | .bePut16 => 0x31
  | .bePut32 => 0x32

/-- The bit S stands for (R64). -/
def OffsetSource.bit : OffsetSource → BitVec 1
  | .imm => 0
  | .next => 1

/-- The value of field S of a command's word: 0 but for an offset command that takes NEXT (R67, R69). -/
def Instr.sBit : Instr → BitVec 1
  | .hdrDec src _ => src.bit
  | .hdrEnc => 0
  | .flgUnpack => 0
  | .flgPack => 0
  | .qDec src _ => src.bit
  | .qEnc => 0
  | .qName => 0
  | .rrCons => 0
  | .rrEnc => 0
  | .beGet16 src _ => src.bit
  | .bePut16 => 0
  | .bePut32 => 0

/-- The value of field IMM16 of a command's word: 0 but for an offset command (R68, R69). -/
def Instr.imm16 : Instr → Half
  | .hdrDec _ imm16 => imm16
  | .hdrEnc => 0
  | .flgUnpack => 0
  | .flgPack => 0
  | .qDec _ imm16 => imm16
  | .qEnc => 0
  | .qName => 0
  | .rrCons => 0
  | .rrEnc => 0
  | .beGet16 _ imm16 => imm16
  | .bePut16 => 0
  | .bePut32 => 0

/-- Whether a command is one of the three offset commands (R67). -/
def Instr.isOffset : Instr → Bool
  | .hdrDec _ _ => true
  | .hdrEnc => false
  | .flgUnpack => false
  | .flgPack => false
  | .qDec _ _ => true
  | .qEnc => false
  | .qName => false
  | .rrCons => false
  | .rrEnc => false
  | .beGet16 _ _ => true
  | .bePut16 => false
  | .bePut32 => false

/-- The command word of a command: `OPC << 24 | S << 16 | IMM16` (R84). -/
def encode (i : Instr) : Word :=
  (i.opc.setWidth 32 <<< 24) ||| (i.sBit.setWidth 32 <<< 16) ||| i.imm16.setWidth 32

/-- The command whose bits the opcode table numbers as `w` in `nbits` bits: the word is the one 32-bit command word (R63), its bits above
`nbits` zero. A command word has no byte order: the host hands it over whole (R18). -/
def decodeTableWord (nbits w : Nat) : Option Instr :=
  if nbits ≤ 32 then decode? (BitVec.ofNat 32 (w % 2 ^ nbits)) else none

/-! The assembler (R82, R83). -/

/-- The operand of an assembler line (R82): none, `#n`, or `next`. -/
inductive AsmOperand where
  /-- No operand is written. -/
  | omitted
  /-- `#n`, legal for 0 ≤ n ≤ 65535. -/
  | number (n : Nat)
  /-- `next`. -/
  | next
  deriving DecidableEq, Repr

/-- An offset command's line: `#n`, `next`, or, by the pseudo-instruction of R83, no operand for `#0`. -/
def assembleOffset (make : OffsetSource → Half → Instr) : AsmOperand → Option Instr
  | .omitted => some (make .imm 0)
  | .number n => if n ≤ 65535 then some (make .imm (BitVec.ofNat 16 n)) else none
  | .next => some (make .next 0)

/-- A line of a command without operand (R82). -/
def assemblePlain (i : Instr) : AsmOperand → Option Instr
  | .omitted => some i
  | .number _ => none
  | .next => none

/-- The mnemonics of R82, each with what its operand makes of it. -/
def asmTable : List (String × (AsmOperand → Option Instr)) :=
  [("hdr.dec", assembleOffset .hdrDec), ("hdr.enc", assemblePlain .hdrEnc),
   ("flg.unpack", assemblePlain .flgUnpack), ("flg.pack", assemblePlain .flgPack),
   ("q.dec", assembleOffset .qDec), ("q.enc", assemblePlain .qEnc), ("q.name", assemblePlain .qName),
   ("rr.cons", assemblePlain .rrCons), ("rr.enc", assemblePlain .rrEnc),
   ("be.get16", assembleOffset .beGet16), ("be.put16", assemblePlain .bePut16),
   ("be.put32", assemblePlain .bePut32)]

/-- The first entry of a table under a name. -/
def lookupName {α : Type} (name : String) : List (String × α) → Option α
  | [] => none
  | (k, v) :: rest => if k = name then some v else lookupName name rest

/-- The command an assembler line `mnemonic [operand]` stands for (R82, R83), none where R82 has no such line. -/
def assemble (mnemonic : String) (operand : AsmOperand) : Option Instr :=
  match lookupName mnemonic asmTable with
  | none => none
  | some make => make operand

/-- The value of a decimal digit. -/
def decimalDigit (c : Char) : Option Nat :=
  if 48 ≤ c.toNat ∧ c.toNat ≤ 57 then some (c.toNat - 48) else none

/-- The value of a hexadecimal digit, its letters in either case (log entry 16). -/
def hexDigit (c : Char) : Option Nat :=
  if 48 ≤ c.toNat ∧ c.toNat ≤ 57 then some (c.toNat - 48)
  else if 65 ≤ c.toNat ∧ c.toNat ≤ 70 then some (c.toNat - 55)
  else if 97 ≤ c.toNat ∧ c.toNat ≤ 102 then some (c.toNat - 87)
  else none

/-- The number a run of digits spells after the digits read so far, none at a character that is no digit. -/
def digitsValue (base : Nat) (digit : Char → Option Nat) : List Char → Nat → Option Nat
  | [], n => some n
  | c :: cs, n =>
    match digit c with
    | none => none
    | some d => digitsValue base digit cs (n * base + d)

/-- A number, decimal or `0x` hexadecimal (R82), none where a digit is missing. -/
def numberValue : List Char → Option Nat
  | [] => none
  | ['0', 'x'] => none
  | '0' :: 'x' :: cs => digitsValue 16 hexDigit cs 0
  | c :: cs => digitsValue 10 decimalDigit (c :: cs) 0

/-- The operand a written word stands for: `next`, or `#` and a number (R82). -/
def operandOf (word : List Char) : Option AsmOperand :=
  match word with
  | ['n', 'e', 'x', 't'] => some .next
  | '#' :: cs => (numberValue cs).map AsmOperand.number
  | _ => none

/-- The words of a line, separated by spaces (log entry 16); `word` is the one being read, backwards. -/
def lineWords : List Char → List Char → List (List Char)
  | [], word => if word = [] then [] else [word.reverse]
  | c :: cs, word =>
    if c = ' ' then (if word = [] then lineWords cs [] else word.reverse :: lineWords cs [])
    else lineWords cs (c :: word)

/-- The command a line of text stands for: `mnemonic [operand]` (R82, R83), none where R82 has no such line. -/
def assembleLine (line : String) : Option Instr :=
  match lineWords line.toList [] with
  | [m] => assemble (String.ofList m) .omitted
  | [m, word] =>
    match operandOf word with
    | none => none
    | some operand => assemble (String.ofList m) operand
  | _ => none

end Sys2Proof
end

