-- ==== Sys2Proof/Config.lean ====
section
/-! DEFINITION. The parameters the source leaves open (00_scope.md R9 to R12), fixed when the core is built, and the values the
spec leaves unspecified (10_state.md R40), as constants without a body. -/

namespace Sys2Proof

/-- The implementation parameters (00_scope.md section 4). The spec fixes them at build time (10_state.md R39): no step
changes them, and every statement over all states holds for every build (log entry 1). -/
structure Config where
  /-- GETNAME_TRAILING_DOT (R9). -/
  getnameTrailingDot : Bool
  /-- TYPE_A (R10). -/
  typeA : Half
  /-- CLASS_IN (R10). -/
  classIn : Half
  /-- IBUF_SIZE, the capacity of the input buffer (R11). -/
  ibufSize : Nat
  /-- QNAME_MAX (R12). -/
  qnameMax : Nat
  /-- ADDR_MAX (R12). -/
  addrMax : Nat
  /-- RNAME_MAX (R12). -/
  rnameMax : Nat
  /-- RDATA_MAX (R12). -/
  rdataMax : Nat
  deriving DecidableEq, Repr

/-- RBYTES_MAX, derived: the largest output any command can produce (R12). -/
def Config.rbytesMax (c : Config) : Nat :=
  max 12 (max (c.qnameMax + 4) (max (c.rnameMax + 10 + c.rdataMax) (2 * c.qnameMax)))

/-- The constraints of R11 and R12. -/
def Config.wf (c : Config) : Bool :=
  decide (12 ≤ c.ibufSize) && decide (c.ibufSize ≤ 65535) && decide (c.ibufSize ≤ c.qnameMax + 4) &&
    decide (2 ≤ c.rnameMax) && decide (4 ≤ c.rdataMax) && decide (c.rdataMax ≤ 65535)

/-- The build State.reset shows: the spec's defaults (R9, R10; the numbers of TYPE_A and CLASS_IN are the spec's own general
knowledge, GK1) and, DESIGN CHOICE (log entry 2), 65535 for each OPEN capacity. -/
def Config.default : Config where
  getnameTrailingDot := true
  typeA := 0x0001
  classIn := 0x0001
  ibufSize := 65535
  qnameMax := 65535
  addrMax := 65535
  rnameMax := 65535
  rdataMax := 65535

/-- FREE VALUE (log entry 9): the number the `n`-th read of an unwritten field gives the host, under no law (10_state.md R40). -/
opaque Config.drawNumber : Nat → Nat

/-- FREE VALUE (log entry 9): the bytes the `n`-th read of an unwritten byte sequence gives the host (10_state.md R40). -/
opaque Config.drawBytes : Nat → List Byte

end Sys2Proof
end

