-- ==== Sys2Proof/Machine/State.lean ====
section
/-! DEFINITION. The state of the machine: the interface registers (10_state.md R19), which of them are unwritten (R37), the
recorded model fault (60_exceptions.md R126), the build parameters, and the host's side (R38, 70_reset_and_hazards.md R150). -/

namespace Sys2Proof.Machine

/-- The eight flag fields of HDR (10_state.md R23; eight, not six: 90_conflicts.md C2). -/
structure HeaderFlags where
  qr : BitVec 1
  opcode : BitVec 4
  aa : BitVec 1
  tc : BitVec 1
  rd : BitVec 1
  ra : BitVec 1
  z : BitVec 3
  rcode : BitVec 4
  deriving DecidableEq, Repr

/-- The header record, 13 fields, each held at its width (10_state.md R23). -/
structure Header where
  id : Half
  flags : HeaderFlags
  qdcount : Half
  ancount : Half
  nscount : Half
  arcount : Half
  deriving DecidableEq, Repr

/-- The question record (10_state.md R24). -/
structure Question where
  qname : List Byte
  qtype : Half
  qclass : Half
  deriving DecidableEq, Repr

/-- The resource record (10_state.md R25). -/
structure Record where
  rname : List Byte
  rtype : Half
  rclass : Half
  rttl : Word
  rdlen : Half
  rdata : List Byte
  deriving DecidableEq, Repr

/-- The fields of the interface registers, IBUF apart (10_state.md R19). Writtenness is tracked per field of a record
register (R37). -/
inductive Reg where
  | ilen | next
  | hdrId | hdrQr | hdrOpcode | hdrAa | hdrTc | hdrRd | hdrRa | hdrZ | hdrRcode
  | hdrQdcount | hdrAncount | hdrNscount | hdrArcount
  | qname | qtype | qclass
  | rname | rtype | rclass | rttl | rdlen | rdata
  | ttl | addr | val | rbytes | status
  deriving DecidableEq, Repr

/-- What a register field holds, as the host writes or reads it. A number may be wider than the field it is meant for:
such a host write is refused (10_state.md R36). -/
inductive HostValue where
  | number (n : Nat)
  | bytes (bs : List Byte)
  deriving DecidableEq, Repr

/-- The error causes a command can report (60_exceptions.md R120); `OK` is the absence of one. -/
inductive ErrorCode where
  /-- Code 1 (R121). -/
  | truncatedInput
  /-- Code 2 (R122). -/
  | malformedAddress
  /-- Code 3 (R123). -/
  | lengthMismatch
  /-- Code 4 (R124). -/
  | malformedName
  /-- Code 5 (R125). -/
  | illegalCommand
  deriving DecidableEq, Repr

/-- One move of the host: a host step of 30_encoding.md R82, an interaction of 10_state.md R38, or a reset between commands
(70_reset_and_hazards.md R141). -/
inductive HostMove where
  /-- `host.load`: write IBUF from index 0 and set ILEN to the count. -/
  | load (bytes : List Byte)
  /-- Write one byte of IBUF (host access 'write', R19). -/
  | setIbuf (index : Nat) (b : Byte)
  /-- `host.set REG, value`. -/
  | set (r : Reg) (v : HostValue)
  /-- Issue a command word on the command port. -/
  | command (w : Word)
  /-- Read a register field. -/
  | read (r : Reg)
  /-- Read one byte of IBUF back. -/
  | readIbuf (index : Nat)
  /-- `host.emit`: append RBYTES to the outbound datagram. -/
  | emit
  /-- Reset the core (R140, R141). -/
  | reset
  deriving DecidableEq, Repr

/-- The host (10_state.md R17, R38): what it still has to do, and what it has collected (70_reset_and_hazards.md R150). -/
structure HostSide where
  /-- The moves to come, the next one first. -/
  moves : List HostMove
  /-- The outbound datagram: the concatenation of every `host.emit`. -/
  datagram : List Byte
  /-- The STATUS after each command, oldest first. -/
  statuses : List Byte
  /-- The values the host read, oldest first. -/
  reads : List HostValue
  deriving DecidableEq, Repr

/-- A byte-addressed memory: (address, byte) pairs, addresses strictly rising. An unlisted address holds no byte: nothing
has written it (10_state.md R37, R39; log entry 6). -/
abbrev Memory := List Host.Cell

/-- Why a step could end in a fault: never. No command is stuck (60_exceptions.md R130; 93_implementation_defined.md U18), and
the model-level fault UNWRITTEN_OPERAND is a record that the run goes on with (60_exceptions.md R126), held in
`State.unwrittenOperand`. -/
inductive Fault where
  deriving DecidableEq, Repr

/-- Why a move is refused. -/
inductive Refusal where
  /-- Raised by an arm of `exec` that has no meaning yet: none has. Safe. -/
  | notModelled (mnemonic : String)
  /-- Raised by `host.set` of a number wider than its field (10_state.md R36). Safe: the model has no such host move. -/
  | valueTooWide
  /-- Raised by `host.set` of more bytes than a byte-sequence register holds (R36). Safe, as above. -/
  | overCapacity
  /-- Raised by `host.set` of ILEN, or `host.load`, above IBUF_SIZE (R21, R36). Safe, as above. -/
  | ilenAboveIbufSize
  /-- Raised by `host.set` of STATUS or RBYTES (R36). Safe, as above. -/
  | readOnlyRegister
  /-- Raised by `host.set` of bytes to a numeric field or a number to a byte sequence (log entry 8). Safe: no such move exists. -/
  | wrongKind
  /-- Raised by a host access to IBUF at an index of IBUF_SIZE or above (R20: indexed 0 to IBUF_SIZE−1). Safe, as above. -/
  | outsideIbuf
  deriving DecidableEq, Repr

/-- The whole state. -/
structure State where
  /-- The build parameters (00_scope.md R9 to R12), never changed (log entry 1). -/
  config : Config
  /-- IBUF (10_state.md R20). -/
  ibuf : Memory
  /-- ILEN (R21). -/
  ilen : Half
  /-- NEXT (R22). -/
  next : Half
  /-- HDR (R23). -/
  hdr : Header
  /-- QREC (R24). -/
  qrec : Question
  /-- RREC (R25). -/
  rrec : Record
  /-- TTL (R26). -/
  ttl : Word
  /-- ADDR (R27). -/
  addr : List Byte
  /-- VAL (R28). -/
  val : Word
  /-- RBYTES (R29). -/
  rbytes : List Byte
  /-- STATUS (R30). -/
  status : Byte
  /-- The register fields no write has reached since reset (R37). -/
  unwritten : List Reg
  /-- The recorded fault UNWRITTEN_OPERAND, never cleared (60_exceptions.md R126; log entry 5). -/
  unwrittenOperand : Bool
  /-- The model's own: how many unspecified values have been drawn (log entry 9). -/
  draws : Nat
  /-- The host. -/
  host : HostSide
  deriving DecidableEq, Repr

/-- Every register field but STATUS: what is unwritten after reset (10_state.md R37, R39). -/
def Reg.afterReset : List Reg :=
  [.ilen, .next,
   .hdrId, .hdrQr, .hdrOpcode, .hdrAa, .hdrTc, .hdrRd, .hdrRa, .hdrZ, .hdrRcode,
   .hdrQdcount, .hdrAncount, .hdrNscount, .hdrArcount,
   .qname, .qtype, .qclass,
   .rname, .rtype, .rclass, .rttl, .rdlen, .rdata,
   .ttl, .addr, .val, .rbytes]

/-- The machine right after reset (10_state.md R39): STATUS is 0, every other register is unwritten and, DESIGN CHOICE (log
entry 4), holds zero or the empty sequence; no byte of IBUF is written; the host has nothing pending and has collected
nothing; no fault is recorded. -/
def State.reset : State where
  config := Config.default
  ibuf := []
  ilen := 0
  next := 0
  hdr := ⟨0, ⟨0, 0, 0, 0, 0, 0, 0, 0⟩, 0, 0, 0, 0⟩
  qrec := ⟨[], 0, 0⟩
  rrec := ⟨[], 0, 0, 0, 0, []⟩
  ttl := 0
  addr := []
  val := 0
  rbytes := []
  status := 0
  unwritten := Reg.afterReset
  unwrittenOperand := false
  draws := 0
  host := ⟨[], [], [], []⟩

end Sys2Proof.Machine
end

