-- ==== Sys2Proof/Machine/Flags.lean ====
section
/-! DEFINITION. The status codes (60_exceptions.md R120) and the header flag bytes: extraction and packing with the named
masks and shifts (30_encoding.md R75 to R77, 41_header.md R88, R89). -/

namespace Sys2Proof.Machine

/-- STATUS.CODE on success (R120). -/
def statusOk : Byte := 0

/-- STATUS.CODE of an error (R120). -/
def ErrorCode.code : ErrorCode → Byte
  | .truncatedInput => 1
  | .malformedAddress => 2
  | .lengthMismatch => 3
  | .malformedName => 4
  | .illegalCommand => 5

/-- Mask of QR in byte A: bit 7 (R77; 90_conflicts.md C1). -/
def qrMask : Byte := 0x80
/-- Mask of OPCODE in byte A (R77). -/
def opcodeMask : Byte := 0x78
/-- Mask of AA in byte A (R77). -/
def aaMask : Byte := 0x04
/-- Mask of TC in byte A (R77). -/
def tcMask : Byte := 0x02
/-- Mask of RD in byte A (R77). -/
def rdMask : Byte := 0x01
/-- Mask of RA in byte B (R77). -/
def raMask : Byte := 0x80
/-- Mask of Z in byte B (R77). -/
def zMask : Byte := 0x70
/-- Mask of RCODE in byte B (R77). -/
def rcodeMask : Byte := 0x0F

/-- One field of a flag byte: `(byte AND mask) >> shift`, at the field's width (R77). -/
def maskedField (w : Nat) (b mask : Byte) (shift : Nat) : BitVec w :=
  ((b &&& mask) >>> shift).setWidth w

/-- FlagUnpack (R88): the eight flag fields of flag bytes A and B. -/
def flagUnpack (a b : Byte) : HeaderFlags where
  qr := maskedField 1 a qrMask 7
  opcode := maskedField 4 a opcodeMask 3
  aa := maskedField 1 a aaMask 2
  tc := maskedField 1 a tcMask 1
  rd := maskedField 1 a rdMask 0
  ra := maskedField 1 b raMask 7
  z := maskedField 3 b zMask 4
  rcode := maskedField 4 b rcodeMask 0

/-- FlagPack, byte A (R89). -/
def flagByteA (f : HeaderFlags) : Byte :=
  (f.qr.setWidth 8 <<< 7) ||| (f.opcode.setWidth 8 <<< 3) ||| (f.aa.setWidth 8 <<< 2) ||| (f.tc.setWidth 8 <<< 1) |||
    f.rd.setWidth 8

/-- FlagPack, byte B (R89). -/
def flagByteB (f : HeaderFlags) : Byte :=
  (f.ra.setWidth 8 <<< 7) ||| (f.z.setWidth 8 <<< 4) ||| f.rcode.setWidth 8

end Sys2Proof.Machine
end

