-- ==== Sys2Proof/Machine/Ops.lean ====
section
/-! DEFINITION. The named operations over IBUF and the register fields: memory reads and writes, the big-endian primitives
(20_memory.md R50 to R54), which fields are unwritten (10_state.md R37), a command's success and its error entry
(60_exceptions.md R128, R129), and the logged STATUS (70_reset_and_hazards.md R150). -/

namespace Sys2Proof.Machine

/-! Memory. -/

/-- The canonical form: addresses strictly rising. -/
abbrev Memory.wf (m : Memory) : Prop := m.Pairwise (fun c d => c.1 < d.1)

/-- The byte at an address, none where nothing has written it. -/
def Memory.read : Memory → Nat → Option Byte
  | [], _ => none
  | (k, b) :: m, a => if a = k then some b else Memory.read m a

/-- Write the byte at an address, keeping the canonical form. -/
def Memory.write : Memory → Nat → Byte → Memory
  | [], a, v => [(a, v)]
  | (k, b) :: m, a, v =>
    if a < k then (a, v) :: (k, b) :: m
    else if a = k then (a, v) :: m
    else (k, b) :: Memory.write m a v

/-- Write a byte sequence from an address upward. -/
def Memory.load : Memory → Nat → List Byte → Memory
  | m, _, [] => m
  | m, a, b :: bs => Memory.load (m.write a b) (a + 1) bs

/-- The `n` bytes from an address upward, none where one of them has never been written. -/
def Memory.readRange (m : Memory) : Nat → Nat → Option (List Byte)
  | _, 0 => some []
  | a, n + 1 =>
    match m.read a, Memory.readRange m (a + 1) n with
    | some b, some bs => some (b :: bs)
    | _, _ => none

/-- IBUF[0..ILEN−1], the input of the decode commands (10_state.md R21), none where one of its bytes is unwritten. -/
def State.inputBytes (s : State) : Option (List Byte) := s.ibuf.readRange 0 s.ilen.toNat

/-! The primitives over the input bytes. The spec does not define them past the end (20_memory.md R50 to R52) and a caller checks
its bounds first, so what they give there, DESIGN CHOICE (log entry 11), is never used. -/

/-- IB(i) (R50). Past the end, 0: DESIGN CHOICE (log entry 11). -/
def inputByte (buf : List Byte) (i : Nat) : Byte := buf.getD i 0

/-- MemRead(addr, n) (R51). Where addr + n is past the end, the shorter sequence of the bytes there are: DESIGN CHOICE (log
entry 11). -/
def memRead (buf : List Byte) (addr n : Nat) : List Byte := (buf.drop addr).take n

/-- BE16(addr) (R52): the byte at the lower offset is bits 15:8. A byte past the end counts as 0: DESIGN CHOICE (log entry 11). -/
def be16 (buf : List Byte) (addr : Nat) : Half := inputByte buf addr ++ inputByte buf (addr + 1)

/-- Put16(v) (R53). -/
def put16 (v : Half) : List Byte := [v.extractLsb' 8 8, v.extractLsb' 0 8]

/-- Put32(v) (R54). -/
def put32 (v : Word) : List Byte :=
  [v.extractLsb' 24 8, v.extractLsb' 16 8, v.extractLsb' 8 8, v.extractLsb' 0 8]

/-! Writtenness (10_state.md R37). -/

/-- Whether every field of a read set has been written. -/
def State.allWritten (s : State) (reads : List Reg) : Bool := reads.all (fun r => !s.unwritten.contains r)

/-- Fields become written. -/
def State.markWritten (s : State) (writes : List Reg) : State :=
  { s with unwritten := s.unwritten.filter (fun r => !writes.contains r) }

/-- The record of the model fault UNWRITTEN_OPERAND, which nothing clears (60_exceptions.md R126). -/
def State.recordFault (s : State) : State := { s with unwrittenOperand := true }

/-- The check of a command's register operands, before its own checks (60_exceptions.md R127). An unwritten register field
ends the command: the fault is recorded, and STATUS and every register stay as they were (95_test_vectors.md P4; log entry 5). -/
def State.withOperands (s : State) (reads : List Reg) (run : Host.Outcome State Fault Refusal) :
    Host.Outcome State Fault Refusal :=
  if s.allWritten reads then run else .next s.recordFault

/-! How a command ends. -/

/-- Error entry, `raise E`: STATUS ← code(E), and nothing else (R128, R129). There is no vector, no saved state and no return
from an error (R130). -/
def State.raise (s : State) (e : ErrorCode) : State := { s with status := e.code }

/-- Success: the fields of the writes column are written and STATUS ← 0 (R129). -/
def State.succeed (s : State) (writes : List Reg) : State := { s.markWritten writes with status := statusOk }

/-- A command's end: its error, or the state with its result registers written. -/
def State.finish (s : State) (writes : List Reg) : Except ErrorCode State → Host.Outcome State Fault Refusal
  | .error e => .next (s.raise e)
  | .ok t => .next (t.succeed writes)

/-- A command that reads register fields only. -/
def State.runCommand (s : State) (reads writes : List Reg) (body : State → Except ErrorCode State) :
    Host.Outcome State Fault Refusal :=
  s.withOperands reads (s.finish writes (body s))

/-- A command that also reads IBUF[0..ILEN−1] (10_state.md R37): an unwritten byte there (DEDUCED, log entry 6: any of them) ends
it as an unwritten register does, before its own checks. -/
def State.runOnInput (s : State) (reads writes : List Reg) (body : State → List Byte → Except ErrorCode State) :
    Host.Outcome State Fault Refusal :=
  s.withOperands reads
    (match s.inputBytes with
      | none => .next s.recordFault
      | some buf => s.finish writes (body s buf))

/-- The host sees STATUS after each command (70_reset_and_hazards.md R150). -/
def State.logStatus (s : State) : State :=
  { s with host := { s.host with statuses := s.host.statuses ++ [s.status] } }

/-- The rest of the host's moves, once it has made one. -/
def State.withMoves (s : State) (moves : List HostMove) : State := { s with host := { s.host with moves := moves } }

/-! Register fields as the host sees them. -/

/-- The width of a numeric field (10_state.md R13, R19, R23 to R30), none for a byte sequence. -/
def Reg.width : Reg → Option Nat
  | .ilen => some 16
  | .next => some 16
  | .hdrId => some 16
  | .hdrQr => some 1
  | .hdrOpcode => some 4
  | .hdrAa => some 1
  | .hdrTc => some 1
  | .hdrRd => some 1
  | .hdrRa => some 1
  | .hdrZ => some 3
  | .hdrRcode => some 4
  | .hdrQdcount => some 16
  | .hdrAncount => some 16
  | .hdrNscount => some 16
  | .hdrArcount => some 16
  | .qname => none
  | .qtype => some 16
  | .qclass => some 16
  | .rname => none
  | .rtype => some 16
  | .rclass => some 16
  | .rttl => some 32
  | .rdlen => some 16
  | .rdata => none
  | .ttl => some 32
  | .addr => none
  | .val => some 32
  | .rbytes => none
  | .status => some 8

/-- The capacity of a byte-sequence register (00_scope.md R12); a numeric field holds no bytes. -/
def Reg.capacity (c : Config) : Reg → Nat
  | .qname => c.qnameMax
  | .rname => c.rnameMax
  | .rdata => c.rdataMax
  | .addr => c.addrMax
  | .rbytes => c.rbytesMax
  | .ilen | .next | .hdrId | .hdrQr | .hdrOpcode | .hdrAa | .hdrTc | .hdrRd | .hdrRa | .hdrZ | .hdrRcode
  | .hdrQdcount | .hdrAncount | .hdrNscount | .hdrArcount | .qtype | .qclass | .rtype | .rclass | .rttl | .rdlen
  | .ttl | .val | .status => 0

/-- What a register field holds. -/
def State.value (s : State) : Reg → HostValue
  | .ilen => .number s.ilen.toNat
  | .next => .number s.next.toNat
  | .hdrId => .number s.hdr.id.toNat
  | .hdrQr => .number s.hdr.flags.qr.toNat
  | .hdrOpcode => .number s.hdr.flags.opcode.toNat
  | .hdrAa => .number s.hdr.flags.aa.toNat
  | .hdrTc => .number s.hdr.flags.tc.toNat
  | .hdrRd => .number s.hdr.flags.rd.toNat
  | .hdrRa => .number s.hdr.flags.ra.toNat
  | .hdrZ => .number s.hdr.flags.z.toNat
  | .hdrRcode => .number s.hdr.flags.rcode.toNat
  | .hdrQdcount => .number s.hdr.qdcount.toNat
  | .hdrAncount => .number s.hdr.ancount.toNat
  | .hdrNscount => .number s.hdr.nscount.toNat
  | .hdrArcount => .number s.hdr.arcount.toNat
  | .qname => .bytes s.qrec.qname
  | .qtype => .number s.qrec.qtype.toNat
  | .qclass => .number s.qrec.qclass.toNat
  | .rname => .bytes s.rrec.rname
  | .rtype => .number s.rrec.rtype.toNat
  | .rclass => .number s.rrec.rclass.toNat
  | .rttl => .number s.rrec.rttl.toNat
  | .rdlen => .number s.rrec.rdlen.toNat
  | .rdata => .bytes s.rrec.rdata
  | .ttl => .number s.ttl.toNat
  | .addr => .bytes s.addr
  | .val => .number s.val.toNat
  | .rbytes => .bytes s.rbytes
  | .status => .number s.status.toNat

/-- Store a number in a numeric field the host may write (10_state.md R19); other fields hold no number or are read-only. -/
def State.storeNumber (s : State) (n : Nat) : Reg → State
  | .ilen => { s with ilen := BitVec.ofNat 16 n }
  | .next => { s with next := BitVec.ofNat 16 n }
  | .hdrId => { s with hdr := { s.hdr with id := BitVec.ofNat 16 n } }
  | .hdrQr => { s with hdr := { s.hdr with flags := { s.hdr.flags with qr := BitVec.ofNat 1 n } } }
  | .hdrOpcode => { s with hdr := { s.hdr with flags := { s.hdr.flags with opcode := BitVec.ofNat 4 n } } }
  | .hdrAa => { s with hdr := { s.hdr with flags := { s.hdr.flags with aa := BitVec.ofNat 1 n } } }
  | .hdrTc => { s with hdr := { s.hdr with flags := { s.hdr.flags with tc := BitVec.ofNat 1 n } } }
  | .hdrRd => { s with hdr := { s.hdr with flags := { s.hdr.flags with rd := BitVec.ofNat 1 n } } }
  | .hdrRa => { s with hdr := { s.hdr with flags := { s.hdr.flags with ra := BitVec.ofNat 1 n } } }
  | .hdrZ => { s with hdr := { s.hdr with flags := { s.hdr.flags with z := BitVec.ofNat 3 n } } }
  | .hdrRcode => { s with hdr := { s.hdr with flags := { s.hdr.flags with rcode := BitVec.ofNat 4 n } } }
  | .hdrQdcount => { s with hdr := { s.hdr with qdcount := BitVec.ofNat 16 n } }
  | .hdrAncount => { s with hdr := { s.hdr with ancount := BitVec.ofNat 16 n } }
  | .hdrNscount => { s with hdr := { s.hdr with nscount := BitVec.ofNat 16 n } }
  | .hdrArcount => { s with hdr := { s.hdr with arcount := BitVec.ofNat 16 n } }
  | .qtype => { s with qrec := { s.qrec with qtype := BitVec.ofNat 16 n } }
  | .qclass => { s with qrec := { s.qrec with qclass := BitVec.ofNat 16 n } }
  | .rtype => { s with rrec := { s.rrec with rtype := BitVec.ofNat 16 n } }
  | .rclass => { s with rrec := { s.rrec with rclass := BitVec.ofNat 16 n } }
  | .rttl => { s with rrec := { s.rrec with rttl := BitVec.ofNat 32 n } }
  | .rdlen => { s with rrec := { s.rrec with rdlen := BitVec.ofNat 16 n } }
  | .ttl => { s with ttl := BitVec.ofNat 32 n }
  | .val => { s with val := BitVec.ofNat 32 n }
  | .qname | .rname | .rdata | .addr | .rbytes | .status => s

/-- Store bytes in a byte-sequence register the host may write (R19). -/
def State.storeBytes (s : State) (bs : List Byte) : Reg → State
  | .qname => { s with qrec := { s.qrec with qname := bs } }
  | .rname => { s with rrec := { s.rrec with rname := bs } }
  | .rdata => { s with rrec := { s.rrec with rdata := bs } }
  | .addr => { s with addr := bs }
  | .ilen | .next | .hdrId | .hdrQr | .hdrOpcode | .hdrAa | .hdrTc | .hdrRd | .hdrRa | .hdrZ | .hdrRcode
  | .hdrQdcount | .hdrAncount | .hdrNscount | .hdrArcount | .qtype | .qclass | .rtype | .rclass | .rttl | .rdlen
  | .ttl | .val | .rbytes | .status => s

end Sys2Proof.Machine
end

