-- ==== Sys2Proof/Machine/Operands.lean ====
section
/-! DEFINITION. The operands of a command: the effective offset (30_encoding.md R71), and the reads and writes columns of the
opcode map (R70). -/

namespace Sys2Proof.Machine

/-- EffOff() (R71): the immediate, zero-extended, or NEXT. With S = 1 the decoder admits IMM16 = 0 only, and IMM16 is not
used (log entry 15). -/
def effOff (src : OffsetSource) (imm16 : Half) (s : State) : Nat :=
  match src with
  | .imm => imm16.toNat
  | .next => s.next.toNat

/-- The eight flag fields of HDR. -/
def hdrFlagRegs : List Reg := [.hdrQr, .hdrOpcode, .hdrAa, .hdrTc, .hdrRd, .hdrRa, .hdrZ, .hdrRcode]

/-- All 13 fields of HDR. -/
def hdrRegs : List Reg := .hdrId :: hdrFlagRegs ++ [.hdrQdcount, .hdrAncount, .hdrNscount, .hdrArcount]

/-- The three fields of QREC. -/
def qrecRegs : List Reg := [.qname, .qtype, .qclass]

/-- The six fields of RREC. -/
def rrecRegs : List Reg := [.rname, .rtype, .rclass, .rttl, .rdlen, .rdata]

/-- The register fields an offset command reads: ILEN, and NEXT if S = 1. -/
def offsetReads : OffsetSource → List Reg
  | .imm => [.ilen]
  | .next => [.ilen, .next]

/-- The reads column of R70, IBUF apart: an offset command also reads IBUF[0..ILEN−1]. -/
def readSet : Instr → List Reg
  | .hdrDec src _ => offsetReads src
  | .hdrEnc => hdrRegs
  | .flgUnpack => [.val]
  | .flgPack => hdrFlagRegs
  | .qDec src _ => offsetReads src
  | .qEnc => qrecRegs
  | .qName => [.qname]
  | .rrCons => [.ttl, .addr]
  | .rrEnc => rrecRegs
  | .beGet16 src _ => offsetReads src
  | .bePut16 => [.val]
  | .bePut32 => [.val]

/-- The writes column of R70, STATUS apart: every command writes it. -/
def writeSet : Instr → List Reg
  | .hdrDec _ _ => hdrRegs ++ [.next]
  | .hdrEnc => [.rbytes]
  | .flgUnpack => hdrFlagRegs
  | .flgPack => [.val]
  | .qDec _ _ => qrecRegs ++ [.next]
  | .qEnc => [.rbytes]
  | .qName => [.rbytes]
  | .rrCons => rrecRegs
  | .rrEnc => [.rbytes]
  | .beGet16 _ _ => [.val, .next]
  | .bePut16 => [.rbytes]
  | .bePut32 => [.rbytes]

end Sys2Proof.Machine
end

