-- ==== Sys2Proof/Machine/HeaderCodec.lean ====
section
/-! DEFINITION. The header codec (41_header.md): HeaderDecode, HeaderEncode and the commands HDR_DEC, HDR_ENC, FLG_UNPACK and
FLG_PACK. The counts are carried, not checked (R95). -/

namespace Sys2Proof.Machine

/-- HeaderDecode(o) (R86); the layout is 30_encoding.md R74. -/
def headerDecode (buf : List Byte) (o : Nat) : Except ErrorCode Header :=
  if buf.length < o + 12 then .error .truncatedInput
  else .ok
    { id := be16 buf o
      flags := flagUnpack (inputByte buf (o + 2)) (inputByte buf (o + 3))
      qdcount := be16 buf (o + 4)
      ancount := be16 buf (o + 6)
      nscount := be16 buf (o + 8)
      arcount := be16 buf (o + 10) }

/-- HeaderEncode(h) (R87): exactly 12 bytes. -/
def headerEncode (h : Header) : List Byte :=
  put16 h.id ++ [flagByteA h.flags, flagByteB h.flags] ++ put16 h.qdcount ++ put16 h.ancount ++ put16 h.nscount ++
    put16 h.arcount

/-- HDR_DEC (R91). NEXT ← o + 12 never truncates: on success it is at most ILEN (44_marshal.md R119). -/
def execHdrDec (src : OffsetSource) (imm16 : Half) (s : State) : Host.Outcome State Fault Refusal :=
  s.runOnInput (offsetReads src) (hdrRegs ++ [.next]) fun t buf =>
    (headerDecode buf (effOff src imm16 t)).map fun h =>
      { t with hdr := h, next := BitVec.ofNat 16 (effOff src imm16 t + 12) }

/-- HDR_ENC (R92). -/
def execHdrEnc (s : State) : Host.Outcome State Fault Refusal :=
  s.runCommand hdrRegs [.rbytes] fun t => .ok { t with rbytes := headerEncode t.hdr }

/-- FLG_UNPACK (R93): VAL[15:8] is flags byte A, VAL[7:0] byte B, VAL[31:16] is ignored. -/
def execFlgUnpack (s : State) : Host.Outcome State Fault Refusal :=
  s.runCommand [.val] hdrFlagRegs fun t =>
    .ok { t with hdr := { t.hdr with flags := flagUnpack (t.val.extractLsb' 8 8) (t.val.extractLsb' 0 8) } }

/-- FLG_PACK (R94): VAL ← zext_32 of the two flag bytes. -/
def execFlgPack (s : State) : Host.Outcome State Fault Refusal :=
  s.runCommand hdrFlagRegs [.val] fun t =>
    .ok { t with val := (flagByteA t.hdr.flags ++ flagByteB t.hdr.flags).setWidth 32 }

end Sys2Proof.Machine
end

