-- ==== Sys2Proof/Machine/Marshaller.lean ====
section
/-! DEFINITION. The big-endian integer marshaller (44_marshal.md): BE_GET16, BE_PUT16 and BE_PUT32. -/

namespace Sys2Proof.Machine

/-- BE_GET16 (R116). NEXT ← o + 2 never truncates: on success it is at most ILEN. -/
def execBeGet16 (src : OffsetSource) (imm16 : Half) (s : State) : Host.Outcome State Fault Refusal :=
  s.runOnInput (offsetReads src) [.val, .next] fun t buf =>
    if buf.length < effOff src imm16 t + 2 then .error .truncatedInput
    else .ok { t with
      val := (be16 buf (effOff src imm16 t)).setWidth 32
      next := BitVec.ofNat 16 (effOff src imm16 t + 2) }

/-- BE_PUT16 (R117): VAL[31:16] is dropped. -/
def execBePut16 (s : State) : Host.Outcome State Fault Refusal :=
  s.runCommand [.val] [.rbytes] fun t => .ok { t with rbytes := put16 (t.val.extractLsb' 0 16) }

/-- BE_PUT32 (R118). -/
def execBePut32 (s : State) : Host.Outcome State Fault Refusal :=
  s.runCommand [.val] [.rbytes] fun t => .ok { t with rbytes := put32 t.val }

end Sys2Proof.Machine
end

