-- ==== Sys2Proof/Machine/QuestionCodec.lean ====
section
/-! DEFINITION. The question codec (42_question.md): the terminator scanner, QuestionDecode, QuestionEncode, ValidName, GetName
and the commands Q_DEC, Q_ENC and Q_NAME. No compression pointer is followed (R106). -/

namespace Sys2Proof.Machine

/-- The index of the first zero byte of a sequence whose first byte has index `i`. -/
def firstZero : List Byte → Nat → Option Nat
  | [], _ => none
  | b :: bs, i => if b = 0 then some i else firstZero bs (i + 1)

/-- FindZero(o) (R97): the first zero byte at or after `o`, whatever the label lengths say. -/
def findZero (buf : List Byte) (o : Nat) : Except ErrorCode Nat :=
  match firstZero (buf.drop o) o with
  | none => .error .truncatedInput
  | some z => .ok z

/-- QuestionDecode(o) (R96): the question and the offset after it. -/
def questionDecode (buf : List Byte) (o : Nat) : Except ErrorCode (Question × Nat) :=
  match findZero buf o with
  | .error e => .error e
  | .ok z =>
    if buf.length < z + 5 then .error .truncatedInput
    else .ok ({ qname := memRead buf o (z - o + 1), qtype := be16 buf (z + 1), qclass := be16 buf (z + 3) }, z + 5)

/-- QuestionEncode(q) (R98). -/
def questionEncode (q : Question) : List Byte := q.qname ++ put16 q.qtype ++ put16 q.qclass

/-- ValidName(n) (R99): the last byte is zero and no byte before it is. -/
def validName : List Byte → Bool
  | [] => false
  | [b] => b == 0
  | b :: c :: bs => b != 0 && validName (c :: bs)

/-- The separator '.', byte 0x2E (R100, R107; general knowledge, GK2). -/
def dotByte : Byte := 0x2E

/-- The loop of GetName (R100), at most `fuel` rounds: `p` is the index of the next length byte, `out` the text so far,
`first` whether no label has been read. `dot` is GETNAME_TRAILING_DOT. -/
def getNameLoop (dot : Bool) (n : List Byte) : Nat → Nat → List Byte → Bool → Except ErrorCode (List Byte)
  | 0, _, _, _ => .error .malformedName
  | fuel + 1, p, out, first =>
    if n.length ≤ p then .error .malformedName
    else if (inputByte n p).toNat = 0 then .ok out
    else if n.length < p + 1 + (inputByte n p).toNat then .error .malformedName
    else
      getNameLoop dot n fuel (p + 1 + (inputByte n p).toNat)
        (if dot then out ++ memRead n (p + 1) (inputByte n p).toNat ++ [dotByte]
         else if first then memRead n (p + 1) (inputByte n p).toNat
         else out ++ [dotByte] ++ memRead n (p + 1) (inputByte n p).toNat)
        false

/-- GetName(n) (R100). Each round moves `p` by at least 2, so `len(n) + 1` rounds are enough (log entry 12). -/
def getName (dot : Bool) (n : List Byte) : Except ErrorCode (List Byte) := getNameLoop dot n (n.length + 1) 0 [] true

/-- Q_DEC (R103). NEXT ← z + 5 never truncates: on success it is at most ILEN. -/
def execQDec (src : OffsetSource) (imm16 : Half) (s : State) : Host.Outcome State Fault Refusal :=
  s.runOnInput (offsetReads src) (qrecRegs ++ [.next]) fun t buf =>
    (questionDecode buf (effOff src imm16 t)).map fun qm => { t with qrec := qm.1, next := BitVec.ofNat 16 qm.2 }

/-- Q_ENC (R104). -/
def execQEnc (s : State) : Host.Outcome State Fault Refusal :=
  s.runCommand qrecRegs [.rbytes] fun t =>
    if validName t.qrec.qname then .ok { t with rbytes := questionEncode t.qrec } else .error .malformedName

/-- Q_NAME (R105). -/
def execQName (s : State) : Host.Outcome State Fault Refusal :=
  s.runCommand [.qname] [.rbytes] fun t =>
    (getName t.config.getnameTrailingDot t.qrec.qname).map fun text => { t with rbytes := text }

end Sys2Proof.Machine
end

