-- ==== Sys2Proof/Machine/RecordCodec.lean ====
section
/-! DEFINITION. The resource-record encoder (43_record.md): the dotted-quad parser, the pointer emitter, RecordConstruct,
RecordEncode and the commands RR_CONS and RR_ENC. There is no record decode (R115). -/

namespace Sys2Proof.Machine

/-- Split a sequence at every byte 0x2E; empty segments are kept (R107). -/
def splitDots : List Byte → List (List Byte)
  | [] => [[]]
  | c :: cs =>
    if c = 0x2E then [] :: splitDots cs
    else
      match splitDots cs with
      | [] => [[c]]
      | seg :: segs => (c :: seg) :: segs

/-- The decimal accumulation of ParseOctet (R108), on naturals: none at a byte that is no digit. -/
def decimalValue : List Byte → Nat → Option Nat
  | [], v => some v
  | c :: cs, v => if c < 0x30 ∨ 0x39 < c then none else decimalValue cs (v * 10 + (c.toNat - 0x30))

/-- ParseOctet(t) (R108): a non-empty run of decimal digits of value at most 255. -/
def parseOctet (t : List Byte) : Except ErrorCode Byte :=
  if t = [] then .error .malformedAddress
  else
    match decimalValue t 0 with
    | none => .error .malformedAddress
    | some v => if 255 < v then .error .malformedAddress else .ok (BitVec.ofNat 8 v)

/-- The octets of a list of segments, left to right: the first that does not parse raises. -/
def parseOctets : List (List Byte) → Except ErrorCode (List Byte)
  | [] => .ok []
  | t :: ts =>
    match parseOctet t with
    | .error e => .error e
    | .ok v => (parseOctets ts).map (v :: ·)

/-- ParseDottedQuad(s) (R107): exactly four segments, then their octets in text order. -/
def parseDottedQuad (s : List Byte) : Except ErrorCode (List Byte) :=
  if (splitDots s).length = 4 then parseOctets (splitDots s) else .error .malformedAddress

/-- PointerEmit() (R110). -/
def pointerEmit : List Byte := [0xC0, 0x0C]

/-- RecordConstruct(ttl, s) (R109). -/
def recordConstruct (c : Config) (ttl : Word) (s : List Byte) : Except ErrorCode Record :=
  (parseDottedQuad s).map fun d =>
    { rname := pointerEmit, rtype := c.typeA, rclass := c.classIn, rttl := ttl, rdlen := 4, rdata := d }

/-- RecordEncode(r) (R111). -/
def recordEncode (r : Record) : List Byte :=
  r.rname ++ put16 r.rtype ++ put16 r.rclass ++ put32 r.rttl ++ put16 r.rdlen ++ r.rdata

/-- RR_CONS (R113). -/
def execRrCons (s : State) : Host.Outcome State Fault Refusal :=
  s.runCommand [.ttl, .addr] rrecRegs fun t =>
    (recordConstruct t.config t.ttl t.addr).map fun r => { t with rrec := r }

/-- RR_ENC (R114), with the length check of R112. -/
def execRrEnc (s : State) : Host.Outcome State Fault Refusal :=
  s.runCommand rrecRegs [.rbytes] fun t =>
    if t.rrec.rdlen.toNat = t.rrec.rdata.length then .ok { t with rbytes := recordEncode t.rrec }
    else .error .lengthMismatch

end Sys2Proof.Machine
end

