-- ==== Sys2Proof/Machine/Dispatch.lean ====
section
/-! DEFINITION. One arm per command (30_encoding.md R70): a call of its meaning. -/

namespace Sys2Proof.Machine

def exec (i : Instr) (s : State) : Host.Outcome State Fault Refusal :=
  match i with
  | .hdrDec src imm16 => Sys2Proof.Machine.execHdrDec src imm16 s
  | .hdrEnc => Sys2Proof.Machine.execHdrEnc s
  | .flgUnpack => Sys2Proof.Machine.execFlgUnpack s
  | .flgPack => Sys2Proof.Machine.execFlgPack s
  | .qDec src imm16 => Sys2Proof.Machine.execQDec src imm16 s
  | .qEnc => Sys2Proof.Machine.execQEnc s
  | .qName => Sys2Proof.Machine.execQName s
  | .rrCons => Sys2Proof.Machine.execRrCons s
  | .rrEnc => Sys2Proof.Machine.execRrEnc s
  | .beGet16 src imm16 => Sys2Proof.Machine.execBeGet16 src imm16 s
  | .bePut16 => Sys2Proof.Machine.execBePut16 s
  | .bePut32 => Sys2Proof.Machine.execBePut32 s

end Sys2Proof.Machine
end

