-- ==== Sys2Proof/Machine/Moves.lean ====
section
/-! DEFINITION. The moves of the host (10_state.md R38, 30_encoding.md R82, 70_reset_and_hazards.md R141): issuing a command
word, writing what R36 lets it write, reading, emitting, resetting. -/

namespace Sys2Proof.Machine

/-- The host sees STATUS when the command step ends (60_exceptions.md R132). -/
def logOutcome : Host.Outcome State Fault Refusal → Host.Outcome State Fault Refusal
  | .next t => .next t.logStatus
  | .fault r => .fault r
  | .refused r => .refused r

/-- Issue a command word: the command it encodes, or ILLEGAL_COMMAND, which is checked before anything else and reads no
operand (60_exceptions.md R125, R127). -/
def issue (w : Word) (s : State) : Host.Outcome State Fault Refusal :=
  match decode w with
  | .ok i => logOutcome (exec i s)
  | .error _ => logOutcome (.next (s.raise .illegalCommand))

/-- `host.load` (30_encoding.md R82): IBUF[0..] and ILEN, refused above IBUF_SIZE (10_state.md R36). -/
def hostLoad (bs : List Byte) (s : State) : Host.Outcome State Fault Refusal :=
  if s.config.ibufSize < bs.length then .refused .ilenAboveIbufSize
  else .next ({ s with ibuf := s.ibuf.load 0 bs, ilen := BitVec.ofNat 16 bs.length }.markWritten [.ilen])

/-- Write one byte of IBUF, refused at IBUF_SIZE and above (R20). -/
def hostSetIbuf (index : Nat) (b : Byte) (s : State) : Host.Outcome State Fault Refusal :=
  if s.config.ibufSize ≤ index then .refused .outsideIbuf
  else .next { s with ibuf := s.ibuf.write index b }

/-- Whether a field is read-only to the host (R30, R36). -/
def Reg.readOnly (r : Reg) : Bool := r == .status || r == .rbytes

/-- `host.set` of a number (R36). -/
def hostSetNumber (r : Reg) (n : Nat) (s : State) : Host.Outcome State Fault Refusal :=
  match r.width with
  | none => .refused .wrongKind
  | some w =>
    if 2 ^ w ≤ n then .refused .valueTooWide
    else if r = .ilen ∧ s.config.ibufSize < n then .refused .ilenAboveIbufSize
    else .next ((s.storeNumber n r).markWritten [r])

/-- `host.set` of a byte sequence (R36). -/
def hostSetBytes (r : Reg) (bs : List Byte) (s : State) : Host.Outcome State Fault Refusal :=
  match r.width with
  | some _ => .refused .wrongKind
  | none =>
    if r.capacity s.config < bs.length then .refused .overCapacity
    else .next ((s.storeBytes bs r).markWritten [r])

/-- `host.set REG, value` (R36, R38). -/
def hostSet (r : Reg) (v : HostValue) (s : State) : Host.Outcome State Fault Refusal :=
  if r.readOnly then .refused .readOnlyRegister
  else
    match v with
    | .number n => hostSetNumber r n s
    | .bytes bs => hostSetBytes r bs s

/-- The unspecified value of an unwritten field: free but for the field's width or capacity (R40; log entry 9). -/
def drawValue (r : Reg) (s : State) : HostValue :=
  match r.width with
  | some w => .number (Config.drawNumber s.draws % 2 ^ w)
  | none => .bytes ((Config.drawBytes s.draws).take (r.capacity s.config))

/-- What the host gets when it reads a field: its contents, or a draw where it is unwritten (R40). -/
def hostSees (r : Reg) (s : State) : HostValue := if r ∈ s.unwritten then drawValue r s else s.value r

/-- A draw uses up one unspecified value. -/
def State.countDraw (s : State) (drawn : Bool) : State := { s with draws := if drawn then s.draws + 1 else s.draws }

/-- The host keeps what it read. -/
def State.keepRead (s : State) (v : HostValue) : State := { s with host := { s.host with reads := s.host.reads ++ [v] } }

/-- Read a register field (R38): nothing in the core changes. -/
def hostRead (r : Reg) (s : State) : Host.Outcome State Fault Refusal :=
  .next ((s.keepRead (hostSees r s)).countDraw (s.unwritten.contains r))

/-- Read one byte of IBUF back: a draw where nothing has written it (R40, U7). -/
def hostReadIbuf (index : Nat) (s : State) : Host.Outcome State Fault Refusal :=
  if s.config.ibufSize ≤ index then .refused .outsideIbuf
  else
    match s.ibuf.read index with
    | some b => .next (s.keepRead (.number b.toNat))
    | none => .next ((s.keepRead (.number (Config.drawNumber s.draws % 256))).countDraw true)

/-- The bytes of a value read from a byte-sequence register. -/
def HostValue.toBytes : HostValue → List Byte
  | .number _ => []
  | .bytes bs => bs

/-- `host.emit` (30_encoding.md R82): append RBYTES, as the host reads it, to the outbound datagram. -/
def hostEmit (s : State) : Host.Outcome State Fault Refusal :=
  .next ({ s with host := { s.host with datagram := s.host.datagram ++ (hostSees .rbytes s).toBytes } }.countDraw
    (s.unwritten.contains .rbytes))

/-- Reset of the core (70_reset_and_hazards.md R140, R141): the registers as State.reset has them; the parameters, the host,
and the recorded fault stay (log entry 10). -/
def hostReset (s : State) : Host.Outcome State Fault Refusal :=
  .next { State.reset with
    config := s.config, unwrittenOperand := s.unwrittenOperand, draws := s.draws, host := s.host }

/-- One move of the host. -/
def runMove (m : HostMove) (s : State) : Host.Outcome State Fault Refusal :=
  match m with
  | .load bs => hostLoad bs s
  | .setIbuf index b => hostSetIbuf index b s
  | .set r v => hostSet r v s
  | .command w => issue w s
  | .read r => hostRead r s
  | .readIbuf index => hostReadIbuf index s
  | .emit => hostEmit s
  | .reset => hostReset s

/-- The host's next move. With none pending the core is idle and holds every register (60_exceptions.md R139). -/
def runNext (s : State) : Host.Outcome State Fault Refusal :=
  match s.host.moves with
  | [] => .next s
  | m :: rest => runMove m (s.withMoves rest)

/-- The host's moves with a command word put before the others. -/
def State.issueFirst (s : State) (w : Word) : State := s.withMoves (.command w :: s.host.moves)

end Sys2Proof.Machine
end

