-- ==== Sys2Proof/Machine/Step.lean ====
section
/-! DEFINITION. The step: one move of the host, a whole command where the move issues one (10_state.md R17). -/

namespace Sys2Proof.Machine

/-- One step of the machine. -/
def step (s : State) : Host.Outcome State Fault Refusal := runNext s

/-- The state in which the next step runs the command word `w`: it is put first on the command port (10_state.md R18; log
entry 7). A word has 32 bits, those above `nbits` zero. -/
def State.withFetchWord (s : State) (nbits w : Nat) : State := s.issueFirst (BitVec.ofNat 32 (w % 2 ^ nbits))

end Sys2Proof.Machine
end

