-- ==== Sys2Proof/Safety.lean ====
section
/-! DEFINITION. What claims are stated in: the invariant of the state, a run without a recorded fault, and the frame of a step
(what it leaves as it was). -/

namespace Sys2Proof.Machine

/-- The invariant of the state: the parameters meet 00_scope.md R11 and R12; IBUF is in canonical form and inside IBUF_SIZE
(10_state.md R20); ILEN is legal (R21); every byte-sequence register is inside its capacity (R24, R25, R27, R29); STATUS holds
one of the six codes (60_exceptions.md R120); the unwritten fields are listed once each and STATUS is not among them (R37). -/
structure State.Inv (s : State) : Prop where
  config : s.config.wf = true
  memory : s.ibuf.wf
  addresses : ∀ c ∈ s.ibuf, c.1 < s.config.ibufSize
  ilen : s.ilen.toNat ≤ s.config.ibufSize
  qname : s.qrec.qname.length ≤ s.config.qnameMax
  addr : s.addr.length ≤ s.config.addrMax
  rname : s.rrec.rname.length ≤ s.config.rnameMax
  rdata : s.rrec.rdata.length ≤ s.config.rdataMax
  rbytes : s.rbytes.length ≤ s.config.rbytesMax
  status : s.status.toNat ≤ 5
  statusWritten : Reg.status ∉ s.unwritten
  unwrittenOnce : s.unwritten.Nodup

/-- A safe run has no fault recorded (60_exceptions.md R126: every claim assumes that no fault is recorded). -/
abbrev State.noFault (s : State) : Prop := s.unwrittenOperand = false

/-- `t` is `s` but for the register fields `regs`: every other field holds what it held, every byte of IBUF reads as it did
(a byte nothing has written still reads as none), and the parameters, the draws and the host are as they were. Which fields
are unwritten and whether a fault is recorded are said apart. -/
structure State.SameBut (regs : List Reg) (s t : State) : Prop where
  fields : ∀ r, r ∉ regs → t.value r = s.value r
  memory : ∀ a, t.ibuf.read a = s.ibuf.read a
  config : t.config = s.config
  draws : t.draws = s.draws
  host : t.host = s.host

/-- A command with its operands written ends in success (60_exceptions.md R129): STATUS is 0, the fields `writes` are now
written and no other field's writtenness changes, nothing but STATUS and `writes` changes, and no fault is recorded that was not. -/
structure Succeeded (writes : List Reg) (s t : State) : Prop where
  status : t.status = 0
  same : State.SameBut (.status :: writes) s t
  written : ∀ r, r ∈ t.unwritten ↔ r ∈ s.unwritten ∧ r ∉ writes
  fault : t.unwrittenOperand = s.unwrittenOperand

/-- A command with its operands written raises an error (60_exceptions.md R129): STATUS is the error's code and nothing else
changes. -/
structure Raised (code : Byte) (s t : State) : Prop where
  status : t.status = code
  same : State.SameBut [.status] s t
  written : t.unwritten = s.unwritten
  fault : t.unwrittenOperand = s.unwrittenOperand

/-- Every operand a command reads is written (10_state.md R37): the register fields of its read set and, for an offset command,
every byte of IBUF below ILEN (DEDUCED, log entry 6: also one its result would not use). -/
structure OperandsWritten (i : Instr) (s : State) : Prop where
  registers : ∀ r ∈ readSet i, r ∉ s.unwritten
  input : i.isOffset = true → ∀ a, a < s.ilen.toNat → s.ibuf.read a ≠ none

/-! Numbers, in which results are stated: plain arithmetic on bytes, apart from the model's own bit operations. -/

/-- Byte `i` of a sequence as a number, 0 past its end. -/
def byteAt (bs : List Byte) (i : Nat) : Nat := (bs.getD i 0).toNat

/-- The two bytes from `i` as a big-endian number (20_memory.md R42). -/
def beAt (bs : List Byte) (i : Nat) : Nat := byteAt bs i * 256 + byteAt bs (i + 1)

/-- The fields of flags word F (30_encoding.md R77, last sentence): qr = F[15], opcode = F[14:11], aa = F[10], tc = F[9],
rd = F[8], ra = F[7], z = F[6:4], rcode = F[3:0]. -/
structure FlagsOfWord (word : Nat) (f : HeaderFlags) : Prop where
  qr : f.qr.toNat = word / 2 ^ 15 % 2
  opcode : f.opcode.toNat = word / 2 ^ 11 % 16
  aa : f.aa.toNat = word / 2 ^ 10 % 2
  tc : f.tc.toNat = word / 2 ^ 9 % 2
  rd : f.rd.toNat = word / 2 ^ 8 % 2
  ra : f.ra.toNat = word / 2 ^ 7 % 2
  z : f.z.toNat = word / 2 ^ 4 % 8
  rcode : f.rcode.toNat = word % 16

/-- Flags byte A as a number (30_encoding.md R75). -/
def numberA (f : HeaderFlags) : Nat :=
  f.qr.toNat * 128 + f.opcode.toNat * 8 + f.aa.toNat * 4 + f.tc.toNat * 2 + f.rd.toNat

/-- Flags byte B as a number (30_encoding.md R76). -/
def numberB (f : HeaderFlags) : Nat := f.ra.toNat * 128 + f.z.toNat * 16 + f.rcode.toNat

/-- The two bytes of a 16-bit number, most significant first (20_memory.md R42). -/
def bytes16 (n : Nat) : List Nat := [n / 256, n % 256]

/-- The four bytes of a 32-bit number, most significant first. -/
def bytes32 (n : Nat) : List Nat := [n / 2 ^ 24, n / 2 ^ 16 % 256, n / 2 ^ 8 % 256, n % 256]

/-- The numbers of a byte sequence. -/
def numbers (bs : List Byte) : List Nat := bs.map BitVec.toNat

/-- `z` is the terminator of a question at offset `o`: the first zero byte at or after `o` (42_question.md R97). -/
def IsTerminator (buf : List Byte) (o z : Nat) : Prop :=
  o ≤ z ∧ buf[z]? = some 0 ∧ ∀ i, o ≤ i → i < z → buf[i]? ≠ some 0

/-- ValidName (42_question.md R99), its three conditions. -/
def ValidName (n : List Byte) : Prop :=
  1 ≤ n.length ∧ n[n.length - 1]? = some 0 ∧ ∀ i, i < n.length - 1 → n[i]? ≠ some 0

/-- The label sequence of `labels`, its terminator apart: each label after its length byte (30_encoding.md R79). -/
def labelBytes (labels : List (List Byte)) : List Byte :=
  labels.flatMap fun label => BitVec.ofNat 8 label.length :: label

/-- A name reads as `labels`: the label sequence, its zero-length label, and whatever follows (42_question.md R100). -/
def ReadsAs (n : List Byte) (labels : List (List Byte)) : Prop :=
  (∀ label ∈ labels, 1 ≤ label.length ∧ label.length ≤ 255) ∧ ∃ rest, n = labelBytes labels ++ 0 :: rest

/-- The dotted text of labels (42_question.md R100): a '.' after every label, or only between them. -/
def dottedText (trailingDot : Bool) (labels : List (List Byte)) : List Byte :=
  if trailingDot then labels.flatMap fun label => label ++ [0x2E] else List.intercalate [0x2E] labels

/-- A decimal segment of value `v` (43_record.md R108): a non-empty run of digits 0x30 to 0x39 with value at most 255. -/
def IsOctet (t : List Byte) (v : Nat) : Prop :=
  t ≠ [] ∧ (∀ c ∈ t, 0x30 ≤ c.toNat ∧ c.toNat ≤ 0x39) ∧ v = t.foldl (fun n c => n * 10 + (c.toNat - 0x30)) 0 ∧ v ≤ 255

/-- An address text of four octets in text order (43_record.md R107). -/
def IsDottedQuad (s : List Byte) (v : List Nat) : Prop :=
  ∃ t₀ t₁ t₂ t₃ v₀ v₁ v₂ v₃, s = t₀ ++ 0x2E :: (t₁ ++ 0x2E :: (t₂ ++ 0x2E :: t₃)) ∧
    IsOctet t₀ v₀ ∧ IsOctet t₁ v₁ ∧ IsOctet t₂ v₂ ∧ IsOctet t₃ v₃ ∧ v = [v₀, v₁, v₂, v₃]

/-- The fields of a command word as numbers (30_encoding.md R64). -/
def wordOpc (w : Word) : Nat := w.toNat / 2 ^ 24
/-- RES, bits 23:17. -/
def wordRes (w : Word) : Nat := w.toNat / 2 ^ 17 % 2 ^ 7
/-- S, bit 16. -/
def wordS (w : Word) : Nat := w.toNat / 2 ^ 16 % 2
/-- IMM16, bits 15:0. -/
def wordImm16 (w : Word) : Nat := w.toNat % 2 ^ 16

/-- The twelve OPC values of 30_encoding.md R70. -/
def mappedOpcodes : List Nat := [0x01, 0x02, 0x03, 0x04, 0x10, 0x11, 0x12, 0x20, 0x21, 0x30, 0x31, 0x32]

/-- The OPC values of the three offset commands (R67). -/
def offsetOpcodes : List Nat := [0x01, 0x10, 0x30]

/-- The four clauses of 30_encoding.md R72. -/
def IllegalByClauses (w : Word) : Prop :=
  wordOpc w ∉ mappedOpcodes ∨ wordRes w ≠ 0 ∨
    (wordOpc w ∉ offsetOpcodes ∧ (wordS w ≠ 0 ∨ wordImm16 w ≠ 0)) ∨
    (wordOpc w ∈ offsetOpcodes ∧ wordS w = 1 ∧ wordImm16 w ≠ 0)

/-- The STATUS values a command can leave: 0, and the codes that 60_exceptions.md R120 says it raises. -/
def statusesOf : Instr → List Byte
  | .hdrDec _ _ => [0, 1]
  | .hdrEnc => [0]
  | .flgUnpack => [0]
  | .flgPack => [0]
  | .qDec _ _ => [0, 1]
  | .qEnc => [0, 4]
  | .qName => [0, 4]
  | .rrCons => [0, 2]
  | .rrEnc => [0, 3]
  | .beGet16 _ _ => [0, 1]
  | .bePut16 => [0]
  | .bePut32 => [0]

end Sys2Proof.Machine
end

