-- ==== Sys2Proof/Certificates/Slice0/Obligations.lean ====
section
/-! DEFINITION. The statements for the provers, from the numbered rules of spec/. -/

open Sys2Proof Sys2Proof.Machine

/-! Encoding. -/

/-- 30_encoding.md R84: the word of a command is `OPC << 24 | S << 16 | IMM16`, with the rule's five examples. -/
def Obligations.CommandWordFormula : Prop :=
  (∀ i : Instr, (encode i).toNat = i.opc.toNat * 2 ^ 24 + i.sBit.toNat * 2 ^ 16 + i.imm16.toNat) ∧
    encode (.hdrDec .imm 0) = 0x01000000 ∧ encode (.qDec .imm 12) = 0x1000000C ∧ encode (.qDec .next 0) = 0x10010000 ∧
    encode .rrEnc = 0x21000000 ∧ encode (.beGet16 .imm 2) = 0x30000002

/-- 30_encoding.md R64 to R70: the word of every well-formed command decodes to it, whatever its operands. -/
def Obligations.DecodeEncodeAgree : Prop :=
  ∀ i : Instr, i.wellFormed = true → decode (encode i) = .ok i

/-- 30_encoding.md R69: every legal command has exactly one encoding. -/
def Obligations.LegalWordIsTheEncoding : Prop :=
  ∀ (w : Word) (i : Instr), decode w = .ok i → i.wellFormed = true ∧ encode i = w

/-- 30_encoding.md R72 and 60_exceptions.md R125: a word is illegal exactly by one of the four clauses; issuing it writes
STATUS ← 5 and no other field, no byte of IBUF, and reads no operand (no fault is recorded). -/
def Obligations.IllegalWordsRaise : Prop :=
  ∀ w : Word, ((∃ c, decode w = .error c) ↔ IllegalByClauses w) ∧
    (IllegalByClauses w → ∀ s : State, ∃ t, runMove (.command w) s = .next t ∧ t.status = 5 ∧
      (∀ r, r ≠ .status → t.value r = s.value r) ∧ (∀ a, t.ibuf.read a = s.ibuf.read a) ∧
      t.unwritten = s.unwritten ∧ t.unwrittenOperand = s.unwrittenOperand ∧ t.config = s.config)

/-- A few words written out from 30_encoding.md R64 and R70: OPC, RES, S, IMM16 from the most significant bit down. -/
def Obligations.SampleWordsDecode : Prop :=
  decode 0b00000001_0000000_0_0000000000000010#32 = .ok (.hdrDec .imm 2) ∧
  decode 0b00000001_0000000_1_0000000000000000#32 = .ok (.hdrDec .next 0) ∧
  decode 0b00000100_0000000_0_0000000000000000#32 = .ok .flgPack ∧
  decode 0b00010000_0000000_0_1111111111111111#32 = .ok (.qDec .imm 65535) ∧
  decode 0b00010010_0000000_0_0000000000000000#32 = .ok .qName ∧
  decode 0b00100000_0000000_0_0000000000000000#32 = .ok .rrCons ∧
  decode 0b00110000_0000000_1_0000000000000000#32 = .ok (.beGet16 .next 0) ∧
  decode 0b00110010_0000000_0_0000000000000000#32 = .ok .bePut32 ∧
  decode 0b00000010_0000000_1_0000000000000000#32 = .error .operandNonzero

/-- 30_encoding.md R82 and R83: each line of the assembler, for every `n` it admits; an offset command without an operand is
the `#0` form; a number above 65535, or an operand of another command, is no line; four lines as text, a number in decimal
and one in hex. -/
def Obligations.AssemblerLines : Prop :=
  (∀ n : Half, assemble "hdr.dec" (.number n.toNat) = some (.hdrDec .imm n) ∧
    assemble "q.dec" (.number n.toNat) = some (.qDec .imm n) ∧
    assemble "be.get16" (.number n.toNat) = some (.beGet16 .imm n)) ∧
  (∀ n : Nat, 65535 < n → assemble "hdr.dec" (.number n) = none ∧ assemble "q.dec" (.number n) = none ∧
    assemble "be.get16" (.number n) = none) ∧
  assemble "hdr.dec" .next = some (.hdrDec .next 0) ∧ assemble "q.dec" .next = some (.qDec .next 0) ∧
  assemble "be.get16" .next = some (.beGet16 .next 0) ∧
  assemble "hdr.dec" .omitted = some (.hdrDec .imm 0) ∧ assemble "q.dec" .omitted = some (.qDec .imm 0) ∧
  assemble "be.get16" .omitted = some (.beGet16 .imm 0) ∧
  assemble "hdr.enc" .omitted = some .hdrEnc ∧ assemble "flg.unpack" .omitted = some .flgUnpack ∧
  assemble "flg.pack" .omitted = some .flgPack ∧ assemble "q.enc" .omitted = some .qEnc ∧
  assemble "q.name" .omitted = some .qName ∧ assemble "rr.cons" .omitted = some .rrCons ∧
  assemble "rr.enc" .omitted = some .rrEnc ∧ assemble "be.put16" .omitted = some .bePut16 ∧
  assemble "be.put32" .omitted = some .bePut32 ∧ assemble "hdr.enc" .next = none ∧
  assembleLine "q.dec #12" = some (.qDec .imm 12) ∧ assembleLine "be.get16 #0xFFFF" = some (.beGet16 .imm 0xFFFF) ∧
  assembleLine "hdr.dec next" = some (.hdrDec .next 0) ∧ assembleLine "rr.enc" = some .rrEnc

/-! The step. -/

/-- 10_state.md R17, R18: when the host's next move issues a word that decodes to `i`, `exec i` answers a next state in the state
with that move taken off, and the step is that; around it the step only logs STATUS for the host. The model's choices in it:
that a command with an unwritten operand answers a next state too (log entry 5), that the host's moves are a list of which a
step makes one (log entry 7), and that the STATUS values are kept in State (log entry 13), for the observation of
70_reset_and_hazards.md R150. -/
def Obligations.StepRunsDecodedCommand : Prop :=
  ∀ (s : State) (w : Word) (i : Instr) (rest : List HostMove), s.host.moves = .command w :: rest → decode w = .ok i →
    ∃ t, exec i (s.withMoves rest) = .next t ∧ step s = .next t.logStatus

/-- 70_reset_and_hazards.md R150, 20_memory.md R56: a step makes the host's next move, whichever it is, in the state with that
move taken off (one step a move is the model's choice: log entry 7). -/
def Obligations.StepMakesNextMove : Prop :=
  ∀ (s : State) (m : HostMove) (rest : List HostMove), s.host.moves = m :: rest → step s = runMove m (s.withMoves rest)

/-- 10_state.md R17, 60_exceptions.md R139: the engine never steps by itself; with no move of the host pending it holds every
register. (That such a step is a next state is the model's choice: log entry 7.) -/
def Obligations.IdleCoreHolds : Prop :=
  ∀ s : State, s.host.moves = [] → step s = .next s

/-! Reset. -/

/-- 10_state.md R39: STATUS is 0, every other field is unwritten, no byte of IBUF is written; no fault is recorded (R142). -/
def Obligations.ResetLeaves : Prop :=
  State.reset.status = 0 ∧ (∀ r, r ∈ State.reset.unwritten ↔ r ≠ .status) ∧
    (∀ a, State.reset.ibuf.read a = none) ∧ State.reset.unwrittenOperand = false

/-- 70_reset_and_hazards.md R140, R141: a reset between commands makes STATUS 0 and every other register unwritten, IBUF
included, and does not change the parameters. That a recorded fault stays is the model's choice (log entry 10). -/
def Obligations.ResetBetweenCommands : Prop :=
  ∀ s : State, ∃ t, runMove .reset s = .next t ∧ t.status = 0 ∧ (∀ r, r ∈ t.unwritten ↔ r ≠ .status) ∧
    (∀ a, t.ibuf.read a = none) ∧ t.config = s.config ∧ t.host = s.host ∧ t.unwrittenOperand = s.unwrittenOperand

/-- The invariant holds at reset (the OPEN parameters and the registers' values there are the model's choice: log entries 2
and 4). -/
def Obligations.ResetMeetsInv : Prop := State.reset.Inv

/-- 10_state.md R20, R21, R24, R25, R29, R37, 00_scope.md R12, 60_exceptions.md R120: every step keeps the invariant. -/
def Obligations.StepKeepsInv : Prop :=
  ∀ s t : State, s.Inv → step s = .next t → t.Inv

/-! Whole-machine rules. -/

/-- 60_exceptions.md R126: a recorded fault is never cleared, by any step. (That the run goes on is the model's choice: log
entry 5.) -/
def Obligations.RecordedFaultStays : Prop :=
  ∀ s t : State, step s = .next t → s.unwrittenOperand = true → t.unwrittenOperand = true

/-- 10_state.md R39, 70_reset_and_hazards.md R141: no step changes the parameters. -/
def Obligations.ParametersNeverChange : Prop :=
  ∀ s t : State, step s = .next t → t.config = s.config

/-- 10_state.md R19, R20, 20_memory.md R47: no command writes IBUF, ILEN, TTL or ADDR, nor anything of the host's. -/
def Obligations.CommandsLeaveInputsAlone : Prop :=
  ∀ (i : Instr) (s t : State), exec i s = .next t →
    (∀ a, t.ibuf.read a = s.ibuf.read a) ∧ t.ilen = s.ilen ∧ t.ttl = s.ttl ∧ t.addr = s.addr ∧ t.host = s.host

/-- 60_exceptions.md R129, with the operands written: a command that raises writes STATUS and nothing else; a command that
succeeds writes every register of its writes column, and nothing but these and STATUS. -/
def Obligations.CommandsAreAllOrNothing : Prop :=
  ∀ (i : Instr) (s t : State), OperandsWritten i s → exec i s = .next t →
    (t.status ≠ 0 → State.SameBut [.status] s t ∧ t.unwritten = s.unwritten) ∧
    (t.status = 0 → State.SameBut (.status :: writeSet i) s t ∧
      ∀ r, r ∈ t.unwritten ↔ r ∈ s.unwritten ∧ r ∉ writeSet i)

/-- 60_exceptions.md R120: which codes each command can leave in STATUS, its operands being written. -/
def Obligations.StatusCodesByCommand : Prop :=
  ∀ (i : Instr) (s t : State), OperandsWritten i s → exec i s = .next t → t.status ∈ statusesOf i

/-- 10_state.md R32: no command reads STATUS: whatever it held, a command with its operands written ends in the same state. -/
def Obligations.StatusIsNeverRead : Prop :=
  ∀ (i : Instr) (s : State) (c : Byte), OperandsWritten i s → exec i { s with status := c } = exec i s

/-- 60_exceptions.md R130 (the core never halts) and R126: every command answers a next state, and after it a fault is recorded
exactly when one was before or an operand is unwritten. That the run goes on after a record (log entry 5), and that any
unwritten byte below ILEN is an unwritten operand of an offset command (log entry 6, DEDUCED), are the model's readings. -/
def Obligations.CommandsFaultExactlyOnUnwrittenOperands : Prop :=
  ∀ (i : Instr) (s : State), ∃ t, exec i s = .next t ∧
    (t.unwrittenOperand = true ↔ s.unwrittenOperand = true ∨ ¬OperandsWritten i s)

/-- 10_state.md R33: a command's result is a function of the command, the operand registers it reads and IBUF[0..ILEN−1]
alone: two states of one build, the operands written in both, that agree there give the same STATUS and, on success, the same
results. -/
def Obligations.ResultDependsOnOperandsOnly : Prop :=
  ∀ (i : Instr) (s₁ s₂ t₁ : State), s₁.config = s₂.config → OperandsWritten i s₁ → OperandsWritten i s₂ →
    (∀ r ∈ readSet i, s₁.value r = s₂.value r) →
    (i.isOffset = true → ∀ a, a < s₁.ilen.toNat → s₁.ibuf.read a = s₂.ibuf.read a) → exec i s₁ = .next t₁ →
    ∃ t₂, exec i s₂ = .next t₂ ∧ t₂.status = t₁.status ∧
      (t₁.status = 0 → ∀ r ∈ writeSet i, t₂.value r = t₁.value r)

/-- 10_state.md R37, 60_exceptions.md R126, R127: a command that reads an unwritten register field, or, being an offset command, an
input with an unwritten byte below ILEN, records UNWRITTEN_OPERAND and changes nothing else, STATUS included; a command whose
operands are written records none. That the run then goes on (log entry 5), and that any such byte counts (log entry 6, DEDUCED),
are the model's readings. -/
def Obligations.UnwrittenOperandIsRecorded : Prop :=
  ∀ (i : Instr) (s : State),
    ((∃ r ∈ readSet i, r ∈ s.unwritten) ∨ (i.isOffset = true ∧ ∃ a, a < s.ilen.toNat ∧ s.ibuf.read a = none) →
      ∃ t, exec i s = .next t ∧ t.unwrittenOperand = true ∧ State.SameBut [] s t ∧ t.unwritten = s.unwritten) ∧
    (OperandsWritten i s → ∀ t, exec i s = .next t → t.unwrittenOperand = s.unwrittenOperand)

/-- 10_state.md R18, 44_marshal.md R119: NEXT never wraps: an offset command that succeeds, its operands written, leaves it
at most ILEN. -/
def Obligations.NextStaysInsideInput : Prop :=
  ∀ (i : Instr) (s t : State), i.isOffset = true → OperandsWritten i s → exec i s = .next t → t.status = 0 →
    t.next.toNat ≤ t.ilen.toNat

/-! Operands and primitives. -/

/-- 30_encoding.md R71: the effective offset is IMM16, zero-extended, or NEXT, and always below 65536. -/
def Obligations.EffectiveOffset : Prop :=
  ∀ (imm16 : Half) (s : State), effOff .imm imm16 s = imm16.toNat ∧ effOff .next imm16 s = s.next.toNat ∧
    ∀ src, effOff src imm16 s < 65536

/-- 20_memory.md R52, R53, R54: BE16, Put16 and Put32 as arithmetic, with the rules' examples. -/
def Obligations.BigEndianPrimitives : Prop :=
  (∀ (buf : List Byte) (a : Nat), a + 2 ≤ buf.length → (be16 buf a).toNat = byteAt buf a * 256 + byteAt buf (a + 1)) ∧
  (∀ v : Half, numbers (put16 v) = [v.toNat / 256, v.toNat % 256]) ∧
  (∀ v : Word, numbers (put32 v) = [v.toNat / 2 ^ 24, v.toNat / 2 ^ 16 % 256, v.toNat / 2 ^ 8 % 256, v.toNat % 256]) ∧
  be16 [0x12, 0x34] 0 = 0x1234 ∧ put32 60 = [0x00, 0x00, 0x00, 0x3C]

/-- 20_memory.md R55: Put16 placed at IBUF[a], [a+1] reads back as the value; Put16 of two bytes composed gives the bytes;
Put16 and Put32 are injective. -/
def Obligations.MarshallerLaws : Prop :=
  (∀ (v : Half) (buf : List Byte) (a : Nat), a + 2 ≤ buf.length → memRead buf a 2 = put16 v → be16 buf a = v) ∧
  (∀ b₀ b₁ : Byte, put16 (BitVec.ofNat 16 (b₀.toNat * 256 + b₁.toNat)) = [b₀, b₁]) ∧
  (∀ v w : Half, put16 v = put16 w → v = w) ∧ (∀ v w : Word, put32 v = put32 w → v = w)

/-- 30_encoding.md R75, R76: flags bytes A and B as sums of their fields. -/
def Obligations.FlagByteLayout : Prop :=
  ∀ f : HeaderFlags, (flagByteA f).toNat = f.qr.toNat * 128 + f.opcode.toNat * 8 + f.aa.toNat * 4 + f.tc.toNat * 2 + f.rd.toNat ∧
    (flagByteB f).toNat = f.ra.toNat * 128 + f.z.toNat * 16 + f.rcode.toNat

/-! The decode commands: where they end in TRUNCATED_INPUT. -/

/-- 60_exceptions.md R121: the exact conditions of TRUNCATED_INPUT, for HDR_DEC, Q_DEC and BE_GET16 with their operands
written: under them the command raises code 1, and otherwise STATUS is 0. -/
def Obligations.TruncatedInputExactly : Prop :=
  ∀ (src : OffsetSource) (imm16 : Half) (s : State) (buf : List Byte), s.inputBytes = some buf →
    s.allWritten (offsetReads src) = true →
    (∃ t, exec (.hdrDec src imm16) s = .next t ∧
      (effOff src imm16 s + 12 > s.ilen.toNat → Raised 1 s t) ∧
      (¬ effOff src imm16 s + 12 > s.ilen.toNat → t.status = 0)) ∧
    (∃ t, exec (.qDec src imm16) s = .next t ∧
      (((¬ ∃ z, IsTerminator buf (effOff src imm16 s) z) ∨
          ∃ z, IsTerminator buf (effOff src imm16 s) z ∧ z + 5 > s.ilen.toNat) → Raised 1 s t) ∧
      (¬ ((¬ ∃ z, IsTerminator buf (effOff src imm16 s) z) ∨
          ∃ z, IsTerminator buf (effOff src imm16 s) z ∧ z + 5 > s.ilen.toNat) → t.status = 0)) ∧
    (∃ t, exec (.beGet16 src imm16) s = .next t ∧
      (effOff src imm16 s + 2 > s.ilen.toNat → Raised 1 s t) ∧
      (¬ effOff src imm16 s + 2 > s.ilen.toNat → t.status = 0))

/-! The header family. -/

/-- 41_header.md R86, R91 and 30_encoding.md R74, R77: HDR_DEC completes when 12 bytes remain and its operands are written;
every field of HDR in arithmetic on the bytes, NEXT = offset + 12, and its frame. -/
def Obligations.HdrDecResult : Prop :=
  ∀ (src : OffsetSource) (imm16 : Half) (s : State) (buf : List Byte), s.inputBytes = some buf →
    s.allWritten (offsetReads src) = true → effOff src imm16 s + 12 ≤ s.ilen.toNat →
    ∃ t, exec (.hdrDec src imm16) s = .next t ∧ Succeeded (hdrRegs ++ [.next]) s t ∧
      t.hdr.id.toNat = beAt buf (effOff src imm16 s) ∧ FlagsOfWord (beAt buf (effOff src imm16 s + 2)) t.hdr.flags ∧
      t.hdr.qdcount.toNat = beAt buf (effOff src imm16 s + 4) ∧ t.hdr.ancount.toNat = beAt buf (effOff src imm16 s + 6) ∧
      t.hdr.nscount.toNat = beAt buf (effOff src imm16 s + 8) ∧ t.hdr.arcount.toNat = beAt buf (effOff src imm16 s + 10) ∧
      t.next.toNat = effOff src imm16 s + 12

/-- 41_header.md R87, R92: HDR_ENC completes with its operands written; RBYTES is the 12 bytes in arithmetic, and its frame. -/
def Obligations.HdrEncResult : Prop :=
  ∀ s : State, s.allWritten hdrRegs = true → ∃ t, exec .hdrEnc s = .next t ∧ Succeeded [.rbytes] s t ∧
    numbers t.rbytes = bytes16 s.hdr.id.toNat ++ [numberA s.hdr.flags, numberB s.hdr.flags] ++ bytes16 s.hdr.qdcount.toNat ++
      bytes16 s.hdr.ancount.toNat ++ bytes16 s.hdr.nscount.toNat ++ bytes16 s.hdr.arcount.toNat

/-- 41_header.md R88, R93: FLG_UNPACK completes with VAL written; the eight flag fields come from VAL[15:0], and its frame
(HDR.id and the four counts among what stays). -/
def Obligations.FlgUnpackResult : Prop :=
  ∀ s : State, s.allWritten [.val] = true → ∃ t, exec .flgUnpack s = .next t ∧
    Succeeded [.hdrQr, .hdrOpcode, .hdrAa, .hdrTc, .hdrRd, .hdrRa, .hdrZ, .hdrRcode] s t ∧
    FlagsOfWord (s.val.toNat % 2 ^ 16) t.hdr.flags

/-- 41_header.md R89, R94: FLG_PACK completes with the eight flag fields written (HDR.id and the counts may be unwritten); VAL
is the two flag bytes, and its frame. -/
def Obligations.FlgPackResult : Prop :=
  ∀ s : State, s.allWritten [.hdrQr, .hdrOpcode, .hdrAa, .hdrTc, .hdrRd, .hdrRa, .hdrZ, .hdrRcode] = true →
    ∃ t, exec .flgPack s = .next t ∧ Succeeded [.val] s t ∧
      t.val.toNat = numberA s.hdr.flags * 256 + numberB s.hdr.flags

/-- 41_header.md R90: the header laws: the round trip at offset 0, its converse at any offset, and the two flag laws. -/
def Obligations.HeaderLaws : Prop :=
  (∀ (h : Header) (rest : List Byte), headerDecode (headerEncode h ++ rest) 0 = .ok h) ∧
  (∀ (buf : List Byte) (o : Nat) (h : Header), o + 12 ≤ buf.length → headerDecode buf o = .ok h →
    headerEncode h = memRead buf o 12) ∧
  (∀ a b : Byte, flagByteA (flagUnpack a b) = a ∧ flagByteB (flagUnpack a b) = b) ∧
  (∀ f : HeaderFlags, flagUnpack (flagByteA f) (flagByteB f) = f)

/-! The question family. -/

/-- 42_question.md R96, R97, R103: Q_DEC completes when a terminator with four bytes after it is found and its operands are
written; QNAME is the bytes through the terminator, QTYPE and QCLASS the two fields after it, NEXT = z + 5, and its frame. -/
def Obligations.QDecResult : Prop :=
  ∀ (src : OffsetSource) (imm16 : Half) (s : State) (buf : List Byte) (z : Nat), s.inputBytes = some buf →
    s.allWritten (offsetReads src) = true → IsTerminator buf (effOff src imm16 s) z → z + 5 ≤ s.ilen.toNat →
    ∃ t, exec (.qDec src imm16) s = .next t ∧ Succeeded [.qname, .qtype, .qclass, .next] s t ∧
      t.qrec.qname.length = z - effOff src imm16 s + 1 ∧
      (∀ k, k ≤ z - effOff src imm16 s → t.qrec.qname[k]? = buf[effOff src imm16 s + k]?) ∧
      t.qrec.qtype.toNat = beAt buf (z + 1) ∧ t.qrec.qclass.toNat = beAt buf (z + 3) ∧ t.next.toNat = z + 5

/-- 42_question.md R98, R104: Q_ENC with its operands written: for a valid name RBYTES is the name and the two fields; otherwise
it raises MALFORMED_NAME, code 4. -/
def Obligations.QEncResult : Prop :=
  ∀ s : State, s.allWritten [.qname, .qtype, .qclass] = true → ∃ t, exec .qEnc s = .next t ∧
    (ValidName s.qrec.qname → Succeeded [.rbytes] s t ∧
      numbers t.rbytes = numbers s.qrec.qname ++ bytes16 s.qrec.qtype.toNat ++ bytes16 s.qrec.qclass.toNat) ∧
    (¬ ValidName s.qrec.qname → Raised 4 s t)

/-- 42_question.md R99: ValidName by its three conditions; every name QuestionDecode returns is valid; a name with inconsistent
label lengths is valid although GetName rejects it. -/
def Obligations.ValidNameExactly : Prop :=
  (∀ n : List Byte, validName n = true ↔
    1 ≤ n.length ∧ n[n.length - 1]? = some 0 ∧ ∀ i, i < n.length - 1 → n[i]? ≠ some 0) ∧
  (∀ (buf : List Byte) (o m : Nat) (q : Question), questionDecode buf o = .ok (q, m) → validName q.qname = true) ∧
  validName [5, 0x61, 0x00] = true ∧ ∀ dot, getName dot [5, 0x61, 0x00] = .error .malformedName

/-- 42_question.md R100, R105: Q_NAME on a name that reads as labels, with QNAME written: it completes, and RBYTES is the dotted
text for either value of GETNAME_TRAILING_DOT. -/
def Obligations.QNameResult : Prop :=
  ∀ (s : State) (labels : List (List Byte)), s.allWritten [.qname] = true → ReadsAs s.qrec.qname labels →
    ∃ t, exec .qName s = .next t ∧ Succeeded [.rbytes] s t ∧
      t.rbytes = dottedText s.config.getnameTrailingDot labels

/-- 42_question.md R100, 60_exceptions.md R124: Q_NAME on a name that reads as no labels (it runs off the end, or a label
overruns it) raises MALFORMED_NAME, code 4. -/
def Obligations.QNameMalformed : Prop :=
  ∀ s : State, s.allWritten [.qname] = true → (¬ ∃ labels, ReadsAs s.qrec.qname labels) →
    ∃ t, exec .qName s = .next t ∧ Raised 4 s t

/-- 42_question.md R105: for a valid name that GetName reads, the text is one byte shorter than the name with a trailing dot;
without it, two bytes shorter, and empty for the root name. -/
def Obligations.QNameTextLength : Prop :=
  ∀ (n text : List Byte), ValidName n →
    (getName true n = .ok text → text.length + 1 = n.length) ∧
    (getName false n = .ok text → (n = [0] → text = []) ∧ (n ≠ [0] → text.length + 2 = n.length))

/-- 42_question.md R101: the question round trip for a valid name, its converse, and its failure for a name with an interior
zero byte. -/
def Obligations.QuestionRoundTrip : Prop :=
  (∀ (q : Question) (rest : List Byte), ValidName q.qname →
    questionDecode (questionEncode q ++ rest) 0 = .ok (q, q.qname.length + 4)) ∧
  (∀ (buf : List Byte) (o m : Nat) (q : Question), questionDecode buf o = .ok (q, m) →
    questionEncode q = memRead buf o (m - o)) ∧
  (∀ (q : Question) (rest : List Byte) (i : Nat), i + 1 < q.qname.length → q.qname[i]? = some 0 →
    questionDecode (questionEncode q ++ rest) 0 ≠ .ok (q, q.qname.length + 4))

/-- 42_question.md R102: a successful decode advances the offset by label_len + 1 + 4, and two questions laid out back to back
decode in sequence, wherever they start. -/
def Obligations.QuestionOffsetAdvance : Prop :=
  (∀ (buf : List Byte) (o m z : Nat) (q : Question), questionDecode buf o = .ok (q, m) → IsTerminator buf o z →
    m = o + (z - o) + 1 + 4) ∧
  (∀ (q₁ q₂ : Question) (before after : List Byte), ValidName q₁.qname → ValidName q₂.qname →
    questionDecode (before ++ questionEncode q₁ ++ questionEncode q₂ ++ after) before.length =
      .ok (q₁, before.length + q₁.qname.length + 4) ∧
    questionDecode (before ++ questionEncode q₁ ++ questionEncode q₂ ++ after) (before.length + q₁.qname.length + 4) =
      .ok (q₂, before.length + q₁.qname.length + 4 + q₂.qname.length + 4))

/-! The record family. -/

/-- 43_record.md R107 to R110, R113: RR_CONS on a dotted quad, with TTL and ADDR written: it completes, RREC is the address
record, and its frame. -/
def Obligations.RrConsResult : Prop :=
  ∀ (s : State) (v : List Nat), s.allWritten [.ttl, .addr] = true → IsDottedQuad s.addr v →
    ∃ t, exec .rrCons s = .next t ∧ Succeeded [.rname, .rtype, .rclass, .rttl, .rdlen, .rdata] s t ∧
      t.rrec.rname = [0xC0, 0x0C] ∧ t.rrec.rtype = s.config.typeA ∧ t.rrec.rclass = s.config.classIn ∧
      t.rrec.rttl = s.ttl ∧ t.rrec.rdlen = 4 ∧ numbers t.rrec.rdata = v

/-- 43_record.md R107, R108, 60_exceptions.md R122: RR_CONS on a text that is no dotted quad raises MALFORMED_ADDRESS, code 2. -/
def Obligations.RrConsMalformed : Prop :=
  ∀ s : State, s.allWritten [.ttl, .addr] = true → (¬ ∃ v, IsDottedQuad s.addr v) →
    ∃ t, exec .rrCons s = .next t ∧ Raised 2 s t

/-- 43_record.md R111, R112, R114: RR_ENC with its operands written: when RDLEN is the length of RDATA, RBYTES is the record's
wire form; otherwise it raises LENGTH_MISMATCH, code 3. -/
def Obligations.RrEncResult : Prop :=
  ∀ s : State, s.allWritten [.rname, .rtype, .rclass, .rttl, .rdlen, .rdata] = true → ∃ t, exec .rrEnc s = .next t ∧
    (s.rrec.rdlen.toNat = s.rrec.rdata.length → Succeeded [.rbytes] s t ∧
      numbers t.rbytes = numbers s.rrec.rname ++ bytes16 s.rrec.rtype.toNat ++ bytes16 s.rrec.rclass.toNat ++
        bytes32 s.rrec.rttl.toNat ++ bytes16 s.rrec.rdlen.toNat ++ numbers s.rrec.rdata) ∧
    (s.rrec.rdlen.toNat ≠ s.rrec.rdata.length → Raised 3 s t)

/-- 43_record.md R115: a record RR_CONS constructs has RDLEN = len(RDATA) = 4 and a 2-byte name; RR_ENC after it never raises
LENGTH_MISMATCH, and its output is exactly the 16 bytes the rule lists. -/
def Obligations.ConstructedRecordLaws : Prop :=
  ∀ s t : State, s.allWritten [.ttl, .addr] = true → exec .rrCons s = .next t → t.status = 0 →
    t.rrec.rdlen.toNat = t.rrec.rdata.length ∧ t.rrec.rdata.length = 4 ∧ t.rrec.rname.length = 2 ∧
    ∃ u, exec .rrEnc t = .next u ∧ u.status = 0 ∧ u.rbytes.length = 16 ∧
      numbers u.rbytes = [0xC0, 0x0C] ++ bytes16 s.config.typeA.toNat ++ bytes16 s.config.classIn.toNat ++
        bytes32 s.ttl.toNat ++ [0x00, 0x04] ++ numbers t.rrec.rdata

/-! The marshaller family. -/

/-- 44_marshal.md R116: BE_GET16 completes when two bytes remain and its operands are written; VAL is the big-endian value,
NEXT = offset + 2, and its frame. -/
def Obligations.BeGet16Result : Prop :=
  ∀ (src : OffsetSource) (imm16 : Half) (s : State) (buf : List Byte), s.inputBytes = some buf →
    s.allWritten (offsetReads src) = true → effOff src imm16 s + 2 ≤ s.ilen.toNat →
    ∃ t, exec (.beGet16 src imm16) s = .next t ∧ Succeeded [.val, .next] s t ∧
      t.val.toNat = beAt buf (effOff src imm16 s) ∧ t.next.toNat = effOff src imm16 s + 2

/-- 44_marshal.md R117: BE_PUT16 completes with VAL written; RBYTES is VAL[15:0], high byte first, and its frame. -/
def Obligations.BePut16Result : Prop :=
  ∀ s : State, s.allWritten [.val] = true → ∃ t, exec .bePut16 s = .next t ∧ Succeeded [.rbytes] s t ∧
    numbers t.rbytes = bytes16 (s.val.toNat % 2 ^ 16)

/-- 44_marshal.md R118: BE_PUT32 completes with VAL written; RBYTES is VAL, high byte first, and its frame. -/
def Obligations.BePut32Result : Prop :=
  ∀ s : State, s.allWritten [.val] = true → ∃ t, exec .bePut32 s = .next t ∧ Succeeded [.rbytes] s t ∧
    numbers t.rbytes = bytes32 s.val.toNat

/-! The host. -/

/-- 30_encoding.md R82, 10_state.md R34, R36, R38: `host.load` of at most IBUF_SIZE bytes makes them the input, leaves the bytes
above them and every register but ILEN as they were (decoded records are copies); a longer one is refused. That the
bytes above stay is the model's reading (log entry 14). -/
def Obligations.HostLoadResult : Prop :=
  ∀ (s : State) (bytes : List Byte), s.config.wf = true →
    (bytes.length ≤ s.config.ibufSize → ∃ t, runMove (.load bytes) s = .next t ∧ t.ilen.toNat = bytes.length ∧
      t.inputBytes = some bytes ∧ (∀ a, bytes.length ≤ a → t.ibuf.read a = s.ibuf.read a) ∧
      (∀ r, r ≠ .ilen → t.value r = s.value r) ∧ (∀ r, r ∈ t.unwritten ↔ r ∈ s.unwritten ∧ r ≠ .ilen)) ∧
    (s.config.ibufSize < bytes.length → runMove (.load bytes) s = .refused .ilenAboveIbufSize)

/-- 10_state.md R36, R38: `host.set` stores a value of the field's kind inside its width or capacity (ILEN at most IBUF_SIZE) in
that field alone; STATUS and RBYTES, wider numbers, longer sequences and a larger ILEN are refused. -/
def Obligations.HostSetExactly : Prop :=
  ∀ (s : State) (r : Reg),
    ((r = .status ∨ r = .rbytes) → ∀ v, runMove (.set r v) s = .refused .readOnlyRegister) ∧
    (r ≠ .status → r ≠ .rbytes →
      (∀ n w, r.width = some w →
        (n < 2 ^ w → (r = .ilen → n ≤ s.config.ibufSize) → ∃ t, runMove (.set r (.number n)) s = .next t ∧
          t.value r = .number n ∧ (∀ r', r' ≠ r → t.value r' = s.value r') ∧ t.ibuf = s.ibuf ∧
          (∀ r', r' ∈ t.unwritten ↔ r' ∈ s.unwritten ∧ r' ≠ r)) ∧
        (2 ^ w ≤ n → runMove (.set r (.number n)) s = .refused .valueTooWide)) ∧
      (∀ n, r = .ilen → n < 2 ^ 16 → s.config.ibufSize < n → runMove (.set r (.number n)) s = .refused .ilenAboveIbufSize) ∧
      (∀ bytes, r.width = none →
        (bytes.length ≤ r.capacity s.config → ∃ t, runMove (.set r (.bytes bytes)) s = .next t ∧
          t.value r = .bytes bytes ∧ (∀ r', r' ≠ r → t.value r' = s.value r') ∧ t.ibuf = s.ibuf ∧
          (∀ r', r' ∈ t.unwritten ↔ r' ∈ s.unwritten ∧ r' ≠ r)) ∧
        (r.capacity s.config < bytes.length → runMove (.set r (.bytes bytes)) s = .refused .overCapacity)))

/-- 10_state.md R38, R40: reading a field changes nothing in the core and gives a written field's contents. An unwritten field
gives an unspecified value, about which nothing is said. -/
def Obligations.HostReadResult : Prop :=
  ∀ (s : State) (r : Reg), ∃ t v, runMove (.read r) s = .next t ∧ t.host.reads = s.host.reads ++ [v] ∧
    (r ∉ s.unwritten → v = s.value r) ∧ (∀ r', t.value r' = s.value r') ∧ t.ibuf = s.ibuf ∧
    t.unwritten = s.unwritten ∧ t.unwrittenOperand = s.unwrittenOperand

/-- 30_encoding.md R82, 20_memory.md R61: `host.emit` appends a written RBYTES to the outbound datagram and changes nothing in
the core. -/
def Obligations.HostEmitResult : Prop :=
  ∀ s : State, Reg.rbytes ∉ s.unwritten → ∃ t, runMove .emit s = .next t ∧
    t.host.datagram = s.host.datagram ++ s.rbytes ∧ (∀ r, t.value r = s.value r) ∧ t.ibuf = s.ibuf ∧
    t.unwritten = s.unwritten ∧ t.host.moves = s.host.moves

/-- 41_header.md R90, 42_question.md R101 on the machine: what HDR_ENC, or Q_ENC of a valid name, puts in RBYTES, loaded back by
the host, decodes at offset 0 to the same record, the operands being written. -/
def Obligations.RoundTripThroughTheHost : Prop :=
  ∀ s : State, s.Inv →
    (∀ t u, s.allWritten hdrRegs = true → exec .hdrEnc s = .next t → runMove (.load t.rbytes) t = .next u →
      ∃ v, exec (.hdrDec .imm 0) u = .next v ∧ v.status = 0 ∧ v.hdr = s.hdr ∧ v.next = 12) ∧
    (∀ t u, s.allWritten [.qname, .qtype, .qclass] = true → exec .qEnc s = .next t → t.status = 0 →
      runMove (.load t.rbytes) t = .next u →
      ∃ v, exec (.qDec .imm 0) u = .next v ∧ v.status = 0 ∧ v.qrec = s.qrec ∧
        v.next.toNat = s.qrec.qname.length + 4)

/-! Priority. -/

/-- 60_exceptions.md R127: of the errors that apply to one word, the first is reported alone, in the order illegal word (STATUS 5,
no fault), unwritten operand (the fault recorded, STATUS and every register as they were), the command's own check (one of its
codes, no fault). That the run goes on after a record (log entry 5), and that any unwritten byte below ILEN is an unwritten
operand of an offset command (log entry 6, DEDUCED), are the model's readings. -/
def Obligations.FirstErrorIsReported : Prop :=
  ∀ (w : Word) (s : State),
    ((∃ c, decode w = .error c) → ∃ t, runMove (.command w) s = .next t ∧ t.status = 5 ∧
      t.unwrittenOperand = s.unwrittenOperand) ∧
    ∀ i, decode w = .ok i →
      (¬OperandsWritten i s → ∃ t, runMove (.command w) s = .next t ∧ t.unwrittenOperand = true ∧
        ∀ r, t.value r = s.value r) ∧
      (OperandsWritten i s → ∃ t, runMove (.command w) s = .next t ∧ t.status ∈ statusesOf i ∧
        t.unwrittenOperand = s.unwrittenOperand)
end

