-- ==== Sys2Proof/Laws/State.lean ====
section
/-! SUPPORT. What each update of the state does to each field, one lemma per field and update. -/

namespace Sys2Proof.Machine

/-! `State.markWritten`. -/

@[simp] theorem State.markWritten_config (s : State) (ws : List Reg) : (s.markWritten ws).config = s.config := rfl
@[simp] theorem State.markWritten_ibuf (s : State) (ws : List Reg) : (s.markWritten ws).ibuf = s.ibuf := rfl
@[simp] theorem State.markWritten_ilen (s : State) (ws : List Reg) : (s.markWritten ws).ilen = s.ilen := rfl
@[simp] theorem State.markWritten_next (s : State) (ws : List Reg) : (s.markWritten ws).next = s.next := rfl
@[simp] theorem State.markWritten_hdr (s : State) (ws : List Reg) : (s.markWritten ws).hdr = s.hdr := rfl
@[simp] theorem State.markWritten_qrec (s : State) (ws : List Reg) : (s.markWritten ws).qrec = s.qrec := rfl
@[simp] theorem State.markWritten_rrec (s : State) (ws : List Reg) : (s.markWritten ws).rrec = s.rrec := rfl
@[simp] theorem State.markWritten_ttl (s : State) (ws : List Reg) : (s.markWritten ws).ttl = s.ttl := rfl
@[simp] theorem State.markWritten_addr (s : State) (ws : List Reg) : (s.markWritten ws).addr = s.addr := rfl
@[simp] theorem State.markWritten_val (s : State) (ws : List Reg) : (s.markWritten ws).val = s.val := rfl
@[simp] theorem State.markWritten_rbytes (s : State) (ws : List Reg) : (s.markWritten ws).rbytes = s.rbytes := rfl
@[simp] theorem State.markWritten_status (s : State) (ws : List Reg) : (s.markWritten ws).status = s.status := rfl
@[simp] theorem State.markWritten_unwritten (s : State) (ws : List Reg) : (s.markWritten ws).unwritten = s.unwritten.filter (fun r => !ws.contains r) := rfl
@[simp] theorem State.markWritten_unwrittenOperand (s : State) (ws : List Reg) : (s.markWritten ws).unwrittenOperand = s.unwrittenOperand := rfl
@[simp] theorem State.markWritten_draws (s : State) (ws : List Reg) : (s.markWritten ws).draws = s.draws := rfl
@[simp] theorem State.markWritten_host (s : State) (ws : List Reg) : (s.markWritten ws).host = s.host := rfl

/-! `State.recordFault`. -/

@[simp] theorem State.recordFault_config (s : State) : s.recordFault.config = s.config := rfl
@[simp] theorem State.recordFault_ibuf (s : State) : s.recordFault.ibuf = s.ibuf := rfl
@[simp] theorem State.recordFault_ilen (s : State) : s.recordFault.ilen = s.ilen := rfl
@[simp] theorem State.recordFault_next (s : State) : s.recordFault.next = s.next := rfl
@[simp] theorem State.recordFault_hdr (s : State) : s.recordFault.hdr = s.hdr := rfl
@[simp] theorem State.recordFault_qrec (s : State) : s.recordFault.qrec = s.qrec := rfl
@[simp] theorem State.recordFault_rrec (s : State) : s.recordFault.rrec = s.rrec := rfl
@[simp] theorem State.recordFault_ttl (s : State) : s.recordFault.ttl = s.ttl := rfl
@[simp] theorem State.recordFault_addr (s : State) : s.recordFault.addr = s.addr := rfl
@[simp] theorem State.recordFault_val (s : State) : s.recordFault.val = s.val := rfl
@[simp] theorem State.recordFault_rbytes (s : State) : s.recordFault.rbytes = s.rbytes := rfl
@[simp] theorem State.recordFault_status (s : State) : s.recordFault.status = s.status := rfl
@[simp] theorem State.recordFault_unwritten (s : State) : s.recordFault.unwritten = s.unwritten := rfl
@[simp] theorem State.recordFault_draws (s : State) : s.recordFault.draws = s.draws := rfl
@[simp] theorem State.recordFault_host (s : State) : s.recordFault.host = s.host := rfl
@[simp] theorem State.recordFault_unwrittenOperand (s : State) : s.recordFault.unwrittenOperand = true := rfl

/-! `State.raise`. -/

@[simp] theorem State.raise_config (s : State) (e : ErrorCode) : (s.raise e).config = s.config := rfl
@[simp] theorem State.raise_ibuf (s : State) (e : ErrorCode) : (s.raise e).ibuf = s.ibuf := rfl
@[simp] theorem State.raise_ilen (s : State) (e : ErrorCode) : (s.raise e).ilen = s.ilen := rfl
@[simp] theorem State.raise_next (s : State) (e : ErrorCode) : (s.raise e).next = s.next := rfl
@[simp] theorem State.raise_hdr (s : State) (e : ErrorCode) : (s.raise e).hdr = s.hdr := rfl
@[simp] theorem State.raise_qrec (s : State) (e : ErrorCode) : (s.raise e).qrec = s.qrec := rfl
@[simp] theorem State.raise_rrec (s : State) (e : ErrorCode) : (s.raise e).rrec = s.rrec := rfl
@[simp] theorem State.raise_ttl (s : State) (e : ErrorCode) : (s.raise e).ttl = s.ttl := rfl
@[simp] theorem State.raise_addr (s : State) (e : ErrorCode) : (s.raise e).addr = s.addr := rfl
@[simp] theorem State.raise_val (s : State) (e : ErrorCode) : (s.raise e).val = s.val := rfl
@[simp] theorem State.raise_rbytes (s : State) (e : ErrorCode) : (s.raise e).rbytes = s.rbytes := rfl
@[simp] theorem State.raise_status (s : State) (e : ErrorCode) : (s.raise e).status = e.code := rfl
@[simp] theorem State.raise_unwritten (s : State) (e : ErrorCode) : (s.raise e).unwritten = s.unwritten := rfl
@[simp] theorem State.raise_unwrittenOperand (s : State) (e : ErrorCode) : (s.raise e).unwrittenOperand = s.unwrittenOperand := rfl
@[simp] theorem State.raise_draws (s : State) (e : ErrorCode) : (s.raise e).draws = s.draws := rfl
@[simp] theorem State.raise_host (s : State) (e : ErrorCode) : (s.raise e).host = s.host := rfl

/-! `State.succeed`. -/

@[simp] theorem State.succeed_config (s : State) (ws : List Reg) : (s.succeed ws).config = s.config := rfl
@[simp] theorem State.succeed_ibuf (s : State) (ws : List Reg) : (s.succeed ws).ibuf = s.ibuf := rfl
@[simp] theorem State.succeed_ilen (s : State) (ws : List Reg) : (s.succeed ws).ilen = s.ilen := rfl
@[simp] theorem State.succeed_next (s : State) (ws : List Reg) : (s.succeed ws).next = s.next := rfl
@[simp] theorem State.succeed_hdr (s : State) (ws : List Reg) : (s.succeed ws).hdr = s.hdr := rfl
@[simp] theorem State.succeed_qrec (s : State) (ws : List Reg) : (s.succeed ws).qrec = s.qrec := rfl
@[simp] theorem State.succeed_rrec (s : State) (ws : List Reg) : (s.succeed ws).rrec = s.rrec := rfl
@[simp] theorem State.succeed_ttl (s : State) (ws : List Reg) : (s.succeed ws).ttl = s.ttl := rfl
@[simp] theorem State.succeed_addr (s : State) (ws : List Reg) : (s.succeed ws).addr = s.addr := rfl
@[simp] theorem State.succeed_val (s : State) (ws : List Reg) : (s.succeed ws).val = s.val := rfl
@[simp] theorem State.succeed_rbytes (s : State) (ws : List Reg) : (s.succeed ws).rbytes = s.rbytes := rfl
@[simp] theorem State.succeed_status (s : State) (ws : List Reg) : (s.succeed ws).status = 0 := rfl
@[simp] theorem State.succeed_unwritten (s : State) (ws : List Reg) : (s.succeed ws).unwritten = s.unwritten.filter (fun r => !ws.contains r) := rfl
@[simp] theorem State.succeed_unwrittenOperand (s : State) (ws : List Reg) : (s.succeed ws).unwrittenOperand = s.unwrittenOperand := rfl
@[simp] theorem State.succeed_draws (s : State) (ws : List Reg) : (s.succeed ws).draws = s.draws := rfl
@[simp] theorem State.succeed_host (s : State) (ws : List Reg) : (s.succeed ws).host = s.host := rfl

/-! `State.logStatus`. -/

@[simp] theorem State.logStatus_config (s : State) : (s.logStatus).config = s.config := rfl
@[simp] theorem State.logStatus_ibuf (s : State) : (s.logStatus).ibuf = s.ibuf := rfl
@[simp] theorem State.logStatus_ilen (s : State) : (s.logStatus).ilen = s.ilen := rfl
@[simp] theorem State.logStatus_next (s : State) : (s.logStatus).next = s.next := rfl
@[simp] theorem State.logStatus_hdr (s : State) : (s.logStatus).hdr = s.hdr := rfl
@[simp] theorem State.logStatus_qrec (s : State) : (s.logStatus).qrec = s.qrec := rfl
@[simp] theorem State.logStatus_rrec (s : State) : (s.logStatus).rrec = s.rrec := rfl
@[simp] theorem State.logStatus_ttl (s : State) : (s.logStatus).ttl = s.ttl := rfl
@[simp] theorem State.logStatus_addr (s : State) : (s.logStatus).addr = s.addr := rfl
@[simp] theorem State.logStatus_val (s : State) : (s.logStatus).val = s.val := rfl
@[simp] theorem State.logStatus_rbytes (s : State) : (s.logStatus).rbytes = s.rbytes := rfl
@[simp] theorem State.logStatus_status (s : State) : (s.logStatus).status = s.status := rfl
@[simp] theorem State.logStatus_unwritten (s : State) : (s.logStatus).unwritten = s.unwritten := rfl
@[simp] theorem State.logStatus_unwrittenOperand (s : State) : (s.logStatus).unwrittenOperand = s.unwrittenOperand := rfl
@[simp] theorem State.logStatus_draws (s : State) : (s.logStatus).draws = s.draws := rfl
@[simp] theorem State.logStatus_host (s : State) : (s.logStatus).host = { s.host with statuses := s.host.statuses ++ [s.status] } := rfl

/-! `State.withMoves`. -/

@[simp] theorem State.withMoves_config (s : State) (ms : List HostMove) : (s.withMoves ms).config = s.config := rfl
@[simp] theorem State.withMoves_ibuf (s : State) (ms : List HostMove) : (s.withMoves ms).ibuf = s.ibuf := rfl
@[simp] theorem State.withMoves_ilen (s : State) (ms : List HostMove) : (s.withMoves ms).ilen = s.ilen := rfl
@[simp] theorem State.withMoves_next (s : State) (ms : List HostMove) : (s.withMoves ms).next = s.next := rfl
@[simp] theorem State.withMoves_hdr (s : State) (ms : List HostMove) : (s.withMoves ms).hdr = s.hdr := rfl
@[simp] theorem State.withMoves_qrec (s : State) (ms : List HostMove) : (s.withMoves ms).qrec = s.qrec := rfl
@[simp] theorem State.withMoves_rrec (s : State) (ms : List HostMove) : (s.withMoves ms).rrec = s.rrec := rfl
@[simp] theorem State.withMoves_ttl (s : State) (ms : List HostMove) : (s.withMoves ms).ttl = s.ttl := rfl
@[simp] theorem State.withMoves_addr (s : State) (ms : List HostMove) : (s.withMoves ms).addr = s.addr := rfl
@[simp] theorem State.withMoves_val (s : State) (ms : List HostMove) : (s.withMoves ms).val = s.val := rfl
@[simp] theorem State.withMoves_rbytes (s : State) (ms : List HostMove) : (s.withMoves ms).rbytes = s.rbytes := rfl
@[simp] theorem State.withMoves_status (s : State) (ms : List HostMove) : (s.withMoves ms).status = s.status := rfl
@[simp] theorem State.withMoves_unwritten (s : State) (ms : List HostMove) : (s.withMoves ms).unwritten = s.unwritten := rfl
@[simp] theorem State.withMoves_unwrittenOperand (s : State) (ms : List HostMove) : (s.withMoves ms).unwrittenOperand = s.unwrittenOperand := rfl
@[simp] theorem State.withMoves_draws (s : State) (ms : List HostMove) : (s.withMoves ms).draws = s.draws := rfl
@[simp] theorem State.withMoves_host (s : State) (ms : List HostMove) : (s.withMoves ms).host = { s.host with moves := ms } := rfl

/-! `State.countDraw`. -/

@[simp] theorem State.countDraw_config (s : State) (d : Bool) : (s.countDraw d).config = s.config := rfl
@[simp] theorem State.countDraw_ibuf (s : State) (d : Bool) : (s.countDraw d).ibuf = s.ibuf := rfl
@[simp] theorem State.countDraw_ilen (s : State) (d : Bool) : (s.countDraw d).ilen = s.ilen := rfl
@[simp] theorem State.countDraw_next (s : State) (d : Bool) : (s.countDraw d).next = s.next := rfl
@[simp] theorem State.countDraw_hdr (s : State) (d : Bool) : (s.countDraw d).hdr = s.hdr := rfl
@[simp] theorem State.countDraw_qrec (s : State) (d : Bool) : (s.countDraw d).qrec = s.qrec := rfl
@[simp] theorem State.countDraw_rrec (s : State) (d : Bool) : (s.countDraw d).rrec = s.rrec := rfl
@[simp] theorem State.countDraw_ttl (s : State) (d : Bool) : (s.countDraw d).ttl = s.ttl := rfl
@[simp] theorem State.countDraw_addr (s : State) (d : Bool) : (s.countDraw d).addr = s.addr := rfl
@[simp] theorem State.countDraw_val (s : State) (d : Bool) : (s.countDraw d).val = s.val := rfl
@[simp] theorem State.countDraw_rbytes (s : State) (d : Bool) : (s.countDraw d).rbytes = s.rbytes := rfl
@[simp] theorem State.countDraw_status (s : State) (d : Bool) : (s.countDraw d).status = s.status := rfl
@[simp] theorem State.countDraw_unwritten (s : State) (d : Bool) : (s.countDraw d).unwritten = s.unwritten := rfl
@[simp] theorem State.countDraw_unwrittenOperand (s : State) (d : Bool) : (s.countDraw d).unwrittenOperand = s.unwrittenOperand := rfl
@[simp] theorem State.countDraw_draws (s : State) (d : Bool) : (s.countDraw d).draws = if d then s.draws + 1 else s.draws := rfl
@[simp] theorem State.countDraw_host (s : State) (d : Bool) : (s.countDraw d).host = s.host := rfl

/-! `State.keepRead`. -/

@[simp] theorem State.keepRead_config (s : State) (v : HostValue) : (s.keepRead v).config = s.config := rfl
@[simp] theorem State.keepRead_ibuf (s : State) (v : HostValue) : (s.keepRead v).ibuf = s.ibuf := rfl
@[simp] theorem State.keepRead_ilen (s : State) (v : HostValue) : (s.keepRead v).ilen = s.ilen := rfl
@[simp] theorem State.keepRead_next (s : State) (v : HostValue) : (s.keepRead v).next = s.next := rfl
@[simp] theorem State.keepRead_hdr (s : State) (v : HostValue) : (s.keepRead v).hdr = s.hdr := rfl
@[simp] theorem State.keepRead_qrec (s : State) (v : HostValue) : (s.keepRead v).qrec = s.qrec := rfl
@[simp] theorem State.keepRead_rrec (s : State) (v : HostValue) : (s.keepRead v).rrec = s.rrec := rfl
@[simp] theorem State.keepRead_ttl (s : State) (v : HostValue) : (s.keepRead v).ttl = s.ttl := rfl
@[simp] theorem State.keepRead_addr (s : State) (v : HostValue) : (s.keepRead v).addr = s.addr := rfl
@[simp] theorem State.keepRead_val (s : State) (v : HostValue) : (s.keepRead v).val = s.val := rfl
@[simp] theorem State.keepRead_rbytes (s : State) (v : HostValue) : (s.keepRead v).rbytes = s.rbytes := rfl
@[simp] theorem State.keepRead_status (s : State) (v : HostValue) : (s.keepRead v).status = s.status := rfl
@[simp] theorem State.keepRead_unwritten (s : State) (v : HostValue) : (s.keepRead v).unwritten = s.unwritten := rfl
@[simp] theorem State.keepRead_unwrittenOperand (s : State) (v : HostValue) : (s.keepRead v).unwrittenOperand = s.unwrittenOperand := rfl
@[simp] theorem State.keepRead_draws (s : State) (v : HostValue) : (s.keepRead v).draws = s.draws := rfl
@[simp] theorem State.keepRead_host (s : State) (v : HostValue) : (s.keepRead v).host = { s.host with reads := s.host.reads ++ [v] } := rfl

/-! The register fields under the updates that touch none of them. -/

@[simp] theorem State.markWritten_value (s : State) (ws : List Reg) (r : Reg) : (s.markWritten ws).value r = s.value r := by cases r <;> rfl
@[simp] theorem State.recordFault_value (s : State) (r : Reg) : s.recordFault.value r = s.value r := by cases r <;> rfl
@[simp] theorem State.logStatus_value (s : State) (r : Reg) : (s.logStatus).value r = s.value r := by cases r <;> rfl
@[simp] theorem State.withMoves_value (s : State) (ms : List HostMove) (r : Reg) : (s.withMoves ms).value r = s.value r := by cases r <;> rfl
@[simp] theorem State.countDraw_value (s : State) (d : Bool) (r : Reg) : (s.countDraw d).value r = s.value r := by cases r <;> rfl
@[simp] theorem State.keepRead_value (s : State) (v : HostValue) (r : Reg) : (s.keepRead v).value r = s.value r := by cases r <;> rfl

theorem State.raise_value (s : State) (e : ErrorCode) (r : Reg) (h : r ≠ .status) : (s.raise e).value r = s.value r := by
  cases r <;> first | rfl | exact absurd rfl h

theorem State.succeed_value (s : State) (ws : List Reg) (r : Reg) (h : r ≠ .status) : (s.succeed ws).value r = s.value r := by
  cases r <;> first | rfl | exact absurd rfl h

/-! Each field is a function of the value the host sees. -/

theorem State.value_rbytes (s : State) : s.value .rbytes = .bytes s.rbytes := rfl

end Sys2Proof.Machine
end

