-- ==== Sys2Proof/Laws/Ops.lean ====
section
/-! SUPPORT. What the shared operations can do, each said once: a command's end, a command over register fields, a command over
the input bytes, and a host move. -/

namespace Sys2Proof.Machine

/-- A command ends in a next state, always: its error, or its success. -/
theorem State.finish_eq_next {s t : State} {ws : List Reg} {r : Except ErrorCode State} :
    s.finish ws r = .next t ↔
      (∃ e, r = .error e ∧ t = s.raise e) ∨ (∃ u, r = .ok u ∧ t = u.succeed ws) := by
  cases r <;> simp [State.finish, eq_comm]

theorem State.finish_ne_refused {s : State} {ws : List Reg} {r : Except ErrorCode State} {f : Refusal} :
    s.finish ws r ≠ .refused f := by
  cases r <;> simp [State.finish]

/-- With its operands written, a command goes on past their check. -/
theorem State.withOperands_written {s : State} {rs : List Reg} (h : s.allWritten rs = true)
    (o : Host.Outcome State Fault Refusal) : s.withOperands rs o = o := by
  simp [State.withOperands, h]

/-- With an operand unwritten, a command ends in the record of the fault. -/
theorem State.withOperands_unwritten {s : State} {rs : List Reg} (h : s.allWritten rs = false)
    (o : Host.Outcome State Fault Refusal) : s.withOperands rs o = .next s.recordFault := by
  simp [State.withOperands, h]

/-- Everything a command over register fields can do with its operands written. -/
theorem State.runCommand_eq_next {s t : State} {rs ws : List Reg} {body : State → Except ErrorCode State}
    (hw : s.allWritten rs = true) :
    s.runCommand rs ws body = .next t ↔
      (∃ e, body s = .error e ∧ t = s.raise e) ∨ (∃ u, body s = .ok u ∧ t = u.succeed ws) := by
  rw [State.runCommand, State.withOperands_written hw]
  exact State.finish_eq_next

theorem State.runCommand_ne_refused {s : State} {rs ws : List Reg} {body : State → Except ErrorCode State}
    {f : Refusal} : s.runCommand rs ws body ≠ .refused f := by
  cases h : s.allWritten rs <;> simp [State.runCommand, State.withOperands, h, State.finish_ne_refused]

/-- Everything a command over the input bytes can do with its operands written. -/
theorem State.runOnInput_eq_next {s t : State} {rs ws : List Reg} {buf : List Byte}
    {body : State → List Byte → Except ErrorCode State} (hw : s.allWritten rs = true) (hb : s.inputBytes = some buf) :
    s.runOnInput rs ws body = .next t ↔
      (∃ e, body s buf = .error e ∧ t = s.raise e) ∨ (∃ u, body s buf = .ok u ∧ t = u.succeed ws) := by
  simp [State.runOnInput, State.withOperands_written hw, hb, State.finish_eq_next]

/-- With a register or an input byte unwritten it ends in the record of the fault. -/
theorem State.runOnInput_unwritten {s : State} {rs ws : List Reg} {body : State → List Byte → Except ErrorCode State}
    (h : s.allWritten rs = false ∨ s.inputBytes = none) : s.runOnInput rs ws body = .next s.recordFault := by
  cases hw : s.allWritten rs
  · exact State.withOperands_unwritten hw _
  · have hb : s.inputBytes = none := h.resolve_left (by simp [hw])
    simp [State.runOnInput, State.withOperands_written hw, hb]

theorem State.runOnInput_ne_refused {s : State} {rs ws : List Reg}
    {body : State → List Byte → Except ErrorCode State} {f : Refusal} :
    s.runOnInput rs ws body ≠ .refused f := by
  cases hw : s.allWritten rs <;> cases h : s.inputBytes <;>
    simp [State.runOnInput, State.withOperands, hw, h, State.finish_ne_refused]

theorem State.allWritten_iff {s : State} {rs : List Reg} : s.allWritten rs = true ↔ ∀ r ∈ rs, r ∉ s.unwritten := by
  simp [State.allWritten]

/-- Which fields a set of fields leaves unwritten. -/
theorem State.mem_markWritten {s : State} {ws : List Reg} {r : Reg} :
    r ∈ (s.markWritten ws).unwritten ↔ r ∈ s.unwritten ∧ r ∉ ws := by
  simp [State.markWritten]

/-- The effective offset fits 16 bits (30_encoding.md R71). -/
theorem effOff_lt (src : OffsetSource) (imm16 : Half) (s : State) : effOff src imm16 s < 65536 := by
  cases src <;> exact BitVec.isLt _

/-- With no move pending a step leaves the state as it is. -/
theorem step_idle {s : State} (h : s.host.moves = []) : step s = .next s := by
  simp [step, runNext, h]

/-- With a move pending a step makes that move and takes it off. -/
theorem step_move {s : State} {m : HostMove} {rest : List HostMove} (h : s.host.moves = m :: rest) :
    step s = runMove m (s.withMoves rest) := by
  simp [step, runNext, h]

/-- A word that decodes runs its command; the host then sees STATUS. -/
theorem issue_ok {w : Word} {i : Instr} (h : decode w = .ok i) (s : State) : issue w s = logOutcome (exec i s) := by
  simp [issue, h]

/-- An illegal word writes STATUS. -/
theorem issue_illegal {w : Word} {c : IllegalWord} (h : decode w = .error c) (s : State) :
    issue w s = .next (s.raise .illegalCommand).logStatus := by
  simp [issue, h, logOutcome]

/-- What a number the host may write does: `host.set` stores it and the field is written. -/
theorem hostSetNumber_eq_next {r : Reg} {n : Nat} {s t : State} :
    hostSetNumber r n s = .next t ↔
      ∃ w, r.width = some w ∧ n < 2 ^ w ∧ (r = .ilen → n ≤ s.config.ibufSize) ∧
        t = (s.storeNumber n r).markWritten [r] := by
  cases hw : r.width with
  | none => simp [hostSetNumber, hw]
  | some w =>
    simp only [hostSetNumber, hw, Option.some.injEq, exists_eq_left']
    split
    · simp; omega
    · split
      · next hn h => simp [h.1]; omega
      · next hn h =>
        simp only [Host.Outcome.next.injEq]
        constructor
        · rintro rfl
          exact ⟨by omega, fun hr => by by_contra hc; exact h ⟨hr, by omega⟩, rfl⟩
        · rintro ⟨-, -, rfl⟩
          rfl

/-- What bytes the host may write do: `host.set` stores them and the field is written. -/
theorem hostSetBytes_eq_next {r : Reg} {bs : List Byte} {s t : State} :
    hostSetBytes r bs s = .next t ↔
      r.width = none ∧ bs.length ≤ r.capacity s.config ∧ t = (s.storeBytes bs r).markWritten [r] := by
  cases hw : r.width with
  | some w => simp [hostSetBytes, hw]
  | none =>
    simp only [hostSetBytes, hw, true_and]
    split
    · simp; omega
    · next h =>
      simp only [Host.Outcome.next.injEq]
      exact ⟨fun h' => ⟨by omega, h'.symm⟩, fun h' => h'.2.symm⟩

end Sys2Proof.Machine
end

