-- ==== Sys2Proof/Laws/Codec.lean ====
section
/-! SUPPORT. The functions of the codecs, each with what it can answer: decode bounds, the terminator scanner, GetName without
fuel, the record constructor, and the lengths of every output. -/

namespace Sys2Proof.Machine

@[simp] theorem put16_length (v : Half) : (put16 v).length = 2 := rfl

@[simp] theorem put32_length (v : Word) : (put32 v).length = 4 := rfl

@[simp] theorem headerEncode_length (h : Header) : (headerEncode h).length = 12 := rfl

@[simp] theorem questionEncode_length (q : Question) : (questionEncode q).length = q.qname.length + 4 := by
  simp [questionEncode]

@[simp] theorem recordEncode_length (r : Record) :
    (recordEncode r).length = r.rname.length + 10 + r.rdata.length := by
  simp [recordEncode]; omega

/-- HeaderDecode succeeds exactly inside the input, and raises TRUNCATED_INPUT otherwise. -/
theorem headerDecode_ok {buf : List Byte} {o : Nat} {h : Header} (hd : headerDecode buf o = .ok h) :
    o + 12 ≤ buf.length := by
  unfold headerDecode at hd
  split at hd
  · cases hd
  · omega

theorem headerDecode_of_inside {buf : List Byte} {o : Nat} (h : o + 12 ≤ buf.length) :
    headerDecode buf o = .ok
      { id := be16 buf o
        flags := flagUnpack (inputByte buf (o + 2)) (inputByte buf (o + 3))
        qdcount := be16 buf (o + 4)
        ancount := be16 buf (o + 6)
        nscount := be16 buf (o + 8)
        arcount := be16 buf (o + 10) } := if_neg (by omega)

theorem headerDecode_error {buf : List Byte} {o : Nat} {e : ErrorCode} :
    headerDecode buf o = .error e ↔ e = .truncatedInput ∧ buf.length < o + 12 := by
  unfold headerDecode
  split
  · next h => simp [h, eq_comm]
  · next h => simp [h]

/-- What the scanner finds: a zero byte, the first one at or after the start. -/
theorem firstZero_eq_some {bs : List Byte} {i z : Nat} :
    firstZero bs i = some z ↔ i ≤ z ∧ bs[z - i]? = some 0 ∧ ∀ k, k < z - i → bs[k]? ≠ some 0 := by
  induction bs generalizing i with
  | nil => simp [firstZero]
  | cons b bs ih =>
    rw [firstZero]
    split
    · next hb =>
      subst hb
      simp only [Option.some.injEq]
      constructor
      · rintro rfl
        simp
      · rintro ⟨hiz, -, hk⟩
        by_contra hne
        exact hk 0 (by omega) rfl
    · next hb =>
      rw [ih]
      constructor
      · rintro ⟨hiz, hz, hk⟩
        have e : z - i = z - (i + 1) + 1 := by omega
        refine ⟨by omega, by simpa [e] using hz, fun k hlt => ?_⟩
        cases k with
        | zero => simpa using hb
        | succ k => simpa using hk k (by omega)
      · rintro ⟨hiz, hz, hk⟩
        have hne : z ≠ i := by
          rintro rfl
          simp at hz
          exact hb hz
        have e : z - i = z - (i + 1) + 1 := by omega
        refine ⟨by omega, by simpa [e] using hz, fun k hlt => ?_⟩
        simpa using hk (k + 1) (by omega)

theorem firstZero_eq_none {bs : List Byte} {i : Nat} : firstZero bs i = none ↔ ∀ b ∈ bs, b ≠ 0 := by
  induction bs generalizing i with
  | nil => simp [firstZero]
  | cons b bs ih =>
    rw [firstZero]
    split
    · next hb => simp [hb]
    · next hb =>
      simp only [ih, List.mem_cons, forall_eq_or_imp]
      exact ⟨fun h => ⟨hb, h⟩, fun h => h.2⟩

/-- FindZero (42_question.md R97): the first zero byte at or after `o`. -/
theorem findZero_eq_ok {buf : List Byte} {o z : Nat} :
    findZero buf o = .ok z ↔ o ≤ z ∧ buf[z]? = some 0 ∧ ∀ i, o ≤ i → i < z → buf[i]? ≠ some 0 := by
  have key : findZero buf o = .ok z ↔ firstZero (buf.drop o) o = some z := by
    unfold findZero
    split <;> simp_all
  rw [key, firstZero_eq_some]
  simp only [List.getElem?_drop]
  constructor
  · rintro ⟨hoz, hz, hk⟩
    refine ⟨hoz, by rwa [show o + (z - o) = z by omega] at hz, fun i hoi hiz => ?_⟩
    have := hk (i - o) (by omega)
    rwa [show o + (i - o) = i by omega] at this
  · rintro ⟨hoz, hz, hk⟩
    exact ⟨hoz, by rwa [show o + (z - o) = z by omega], fun k hlt => hk (o + k) (by omega) (by omega)⟩

theorem findZero_eq_error {buf : List Byte} {o : Nat} {e : ErrorCode} :
    findZero buf o = .error e ↔ e = .truncatedInput ∧ ∀ i, o ≤ i → buf[i]? ≠ some 0 := by
  have key : findZero buf o = .error e ↔ e = .truncatedInput ∧ firstZero (buf.drop o) o = none := by
    unfold findZero
    cases firstZero (buf.drop o) o <;> simp [eq_comm]
  rw [key, firstZero_eq_none]
  refine and_congr_right fun _ => ?_
  constructor
  · intro h i hoi hi
    refine h 0 ?_ rfl
    rw [List.mem_iff_getElem?]
    exact ⟨i - o, by rw [List.getElem?_drop, show o + (i - o) = i by omega]; exact hi⟩
  · intro h b hb hz
    obtain ⟨k, hk⟩ := List.mem_iff_getElem?.1 hb
    rw [List.getElem?_drop, hz] at hk
    exact h (o + k) (by omega) hk

/-- Everything a successful QuestionDecode says: where the terminator is, and the three fields. -/
theorem questionDecode_eq_ok {buf : List Byte} {o : Nat} {q : Question} {m : Nat} :
    questionDecode buf o = .ok (q, m) ↔
      ∃ z, findZero buf o = .ok z ∧ z + 5 ≤ buf.length ∧ m = z + 5 ∧
        q = { qname := memRead buf o (z - o + 1), qtype := be16 buf (z + 1), qclass := be16 buf (z + 3) } := by
  unfold questionDecode
  split
  · next h => simp [h]
  · next z h =>
    split
    · next hlt =>
      simp only [reduceCtorEq, h, Except.ok.injEq, exists_eq_left', false_iff]
      rintro ⟨h1, -⟩
      omega
    · next hlt =>
      simp only [Except.ok.injEq, Prod.mk.injEq, h, exists_eq_left']
      constructor
      · rintro ⟨rfl, rfl⟩
        exact ⟨by omega, rfl, rfl⟩
      · rintro ⟨-, rfl, rfl⟩
        exact ⟨rfl, rfl⟩

theorem questionDecode_error {buf : List Byte} {o : Nat} {e : ErrorCode} (h : questionDecode buf o = .error e) :
    e = .truncatedInput := by
  unfold questionDecode at h
  split at h
  · next h' =>
    cases h
    exact (findZero_eq_error.1 h').1
  · split at h <;> simp_all

theorem memRead_length {buf : List Byte} {a n : Nat} (h : a + n ≤ buf.length) : (memRead buf a n).length = n := by
  simp only [memRead, List.length_take, List.length_drop]
  omega

/-- More fuel than bytes left changes nothing: the loop of GetName has the fuel it needs. -/
theorem getNameLoop_fuel (dot : Bool) (n : List Byte) (fuel fuel' p : Nat) (out : List Byte) (first : Bool)
    (h : n.length < fuel + p) (h' : n.length < fuel' + p) :
    getNameLoop dot n fuel p out first = getNameLoop dot n fuel' p out first := by
  induction fuel generalizing fuel' p out first with
  | zero =>
    cases fuel' with
    | zero => rfl
    | succ fuel' => rw [getNameLoop, getNameLoop, if_pos (by omega)]
  | succ fuel ih =>
    cases fuel' with
    | zero => rw [getNameLoop, getNameLoop, if_pos (by omega)]
    | succ fuel' =>
      simp only [getNameLoop]
      split
      · rfl
      · split
        · rfl
        · split
          · rfl
          · exact ih _ _ _ _ (by omega) (by omega)

/-- GetName raises MALFORMED_NAME and nothing else. -/
theorem getNameLoop_error {dot : Bool} {n : List Byte} {fuel p : Nat} {out : List Byte} {first : Bool} {e : ErrorCode}
    (h : getNameLoop dot n fuel p out first = .error e) : e = .malformedName := by
  induction fuel generalizing p out first with
  | zero => cases h; rfl
  | succ fuel ih =>
    simp only [getNameLoop] at h
    split at h
    · cases h; rfl
    · split at h
      · cases h
      · split at h
        · cases h; rfl
        · exact ih h

theorem getName_error {dot : Bool} {n : List Byte} {e : ErrorCode} (h : getName dot n = .error e) :
    e = .malformedName := getNameLoop_error h

/-- The loop of GetName adds at most one byte of text a byte of name. -/
theorem getNameLoop_length {dot : Bool} {n : List Byte} {fuel p : Nat} {out : List Byte} {first : Bool}
    {text : List Byte} (h : getNameLoop dot n fuel p out first = .ok text) :
    text.length + p ≤ out.length + n.length ∨ text = out := by
  induction fuel generalizing p out first with
  | zero => cases h
  | succ fuel ih =>
    simp only [getNameLoop] at h
    split at h
    · cases h
    · split at h
      · cases h; exact .inr rfl
      · split at h
        · cases h
        · next h1 h2 h3 =>
          have hm : (memRead n (p + 1) (inputByte n p).toNat).length = (inputByte n p).toNat :=
            memRead_length (by omega)
          left
          rcases ih h with h | h
          · revert h
            cases dot <;> cases first <;> simp [hm] <;> omega
          · rw [h]
            cases dot <;> cases first <;> simp [hm] <;> omega

/-- The text of a name is no longer than the name (00_scope.md R12 allows twice as much). -/
theorem getName_length {dot : Bool} {n text : List Byte} (h : getName dot n = .ok text) :
    text.length ≤ n.length := by
  rcases getNameLoop_length h with h | h
  · simpa using h
  · simp [h]

theorem parseOctet_error {t : List Byte} {e : ErrorCode} (h : parseOctet t = .error e) : e = .malformedAddress := by
  unfold parseOctet at h
  split at h
  · cases h; rfl
  · split at h
    · cases h; rfl
    · split at h <;> cases h
      rfl

theorem parseOctets_error {ts : List (List Byte)} {e : ErrorCode} (h : parseOctets ts = .error e) :
    e = .malformedAddress := by
  induction ts with
  | nil => cases h
  | cons t ts ih =>
    rw [parseOctets] at h
    split at h
    · next h' => cases h; exact parseOctet_error h'
    · cases ht : parseOctets ts with
      | error e' => rw [ht] at h; cases h; exact ih ht
      | ok ds => rw [ht] at h; cases h

theorem parseOctets_length {ts : List (List Byte)} {ds : List Byte} (h : parseOctets ts = .ok ds) :
    ds.length = ts.length := by
  induction ts generalizing ds with
  | nil => cases h; rfl
  | cons t ts ih =>
    rw [parseOctets] at h
    split at h
    · cases h
    · cases ht : parseOctets ts with
      | error e' => rw [ht] at h; cases h
      | ok ds' => rw [ht] at h; cases h; simp [ih ht]

theorem parseDottedQuad_error {s : List Byte} {e : ErrorCode} (h : parseDottedQuad s = .error e) :
    e = .malformedAddress := by
  unfold parseDottedQuad at h
  split at h
  · exact parseOctets_error h
  · cases h; rfl

/-- An address has exactly four bytes (43_record.md R107). -/
theorem parseDottedQuad_length {s d : List Byte} (h : parseDottedQuad s = .ok d) : d.length = 4 := by
  unfold parseDottedQuad at h
  split at h
  · next h4 => rw [parseOctets_length h, h4]
  · cases h

/-- Everything RecordConstruct can answer. -/
theorem recordConstruct_eq_ok {c : Config} {ttl : Word} {s : List Byte} {r : Record} :
    recordConstruct c ttl s = .ok r ↔
      ∃ d, parseDottedQuad s = .ok d ∧
        r = { rname := pointerEmit, rtype := c.typeA, rclass := c.classIn, rttl := ttl, rdlen := 4, rdata := d } := by
  unfold recordConstruct
  cases parseDottedQuad s <;> simp [Except.map, eq_comm]

theorem recordConstruct_error {c : Config} {ttl : Word} {s : List Byte} {e : ErrorCode}
    (h : recordConstruct c ttl s = .error e) : e = .malformedAddress := by
  unfold recordConstruct at h
  cases hd : parseDottedQuad s with
  | error e' => rw [hd] at h; cases h; exact parseDottedQuad_error hd
  | ok d => rw [hd] at h; cases h

end Sys2Proof.Machine
end

