-- ==== Sys2Proof/Laws/Exec.lean ====
section
/-! SUPPORT. What a command can do, said once for all twelve: with an operand unwritten it records the fault; otherwise it raises
one of its errors or writes its result fields and nothing else. -/

namespace Sys2Proof.Machine

/-- `t` is `s` but for what the register fields `ws` hold: the work of a command before its end. -/
structure OnlyWrites (ws : List Reg) (s t : State) : Prop where
  fields : ∀ r, r ∉ ws → t.value r = s.value r
  ibuf : t.ibuf = s.ibuf
  config : t.config = s.config
  draws : t.draws = s.draws
  host : t.host = s.host
  unwritten : t.unwritten = s.unwritten
  fault : t.unwrittenOperand = s.unwrittenOperand

theorem OnlyWrites.hdr (s : State) (h : Header) (n : Half) :
    OnlyWrites (hdrRegs ++ [.next]) s { s with hdr := h, next := n } :=
  ⟨fun r hr => by cases r <;> first | rfl | exact absurd (by decide) hr, rfl, rfl, rfl, rfl, rfl, rfl⟩

theorem OnlyWrites.flags (s : State) (f : HeaderFlags) :
    OnlyWrites hdrFlagRegs s { s with hdr := { s.hdr with flags := f } } :=
  ⟨fun r hr => by cases r <;> first | rfl | exact absurd (by decide) hr, rfl, rfl, rfl, rfl, rfl, rfl⟩

theorem OnlyWrites.qrec (s : State) (q : Question) (n : Half) :
    OnlyWrites (qrecRegs ++ [.next]) s { s with qrec := q, next := n } :=
  ⟨fun r hr => by cases r <;> first | rfl | exact absurd (by decide) hr, rfl, rfl, rfl, rfl, rfl, rfl⟩

theorem OnlyWrites.rrec (s : State) (r : Record) : OnlyWrites rrecRegs s { s with rrec := r } :=
  ⟨fun r hr => by cases r <;> first | rfl | exact absurd (by decide) hr, rfl, rfl, rfl, rfl, rfl, rfl⟩

theorem OnlyWrites.rbytes (s : State) (bs : List Byte) : OnlyWrites [.rbytes] s { s with rbytes := bs } :=
  ⟨fun r hr => by cases r <;> first | rfl | exact absurd (by decide) hr, rfl, rfl, rfl, rfl, rfl, rfl⟩

theorem OnlyWrites.val (s : State) (v : Word) : OnlyWrites [.val] s { s with val := v } :=
  ⟨fun r hr => by cases r <;> first | rfl | exact absurd (by decide) hr, rfl, rfl, rfl, rfl, rfl, rfl⟩

theorem OnlyWrites.valNext (s : State) (v : Word) (n : Half) :
    OnlyWrites [.val, .next] s { s with val := v, next := n } :=
  ⟨fun r hr => by cases r <;> first | rfl | exact absurd (by decide) hr, rfl, rfl, rfl, rfl, rfl, rfl⟩

/-- A result written, then success: the frame of the whole command. -/
theorem OnlyWrites.succeed_same {ws : List Reg} {s u : State} (h : OnlyWrites ws s u) :
    State.SameBut (.status :: ws) s (u.succeed ws) where
  fields r hr := by
    rw [State.succeed_value _ _ _ (fun e => hr (by simp [e])), h.fields r (fun e => hr (by simp [e]))]
  memory a := by simp [h.ibuf]
  config := by simp [h.config]
  draws := by simp [h.draws]
  host := by simp [h.host]

theorem State.raise_same (s : State) (e : ErrorCode) : State.SameBut [.status] s (s.raise e) where
  fields r hr := by
    rw [State.raise_value _ _ _ (fun e => hr (by simp [e]))]
  memory _ := rfl
  config := rfl
  draws := rfl
  host := rfl

/-- Recording the fault changes no register field, and nothing else a frame names. -/
theorem State.recordFault_same (s : State) : State.SameBut [] s s.recordFault where
  fields r _ := State.recordFault_value s r
  memory _ := rfl
  config := rfl
  draws := rfl
  host := rfl

theorem OperandsWritten.allWritten {i : Instr} {s : State} (h : OperandsWritten i s) : s.allWritten (readSet i) = true :=
  State.allWritten_iff.2 h.registers

theorem OperandsWritten.inputBytes {i : Instr} {s : State} (h : OperandsWritten i s) (hi : i.isOffset = true) :
    ∃ buf, s.inputBytes = some buf := by
  cases hb : s.inputBytes with
  | some buf => exact ⟨buf, rfl⟩
  | none =>
    obtain ⟨a, ha, hn⟩ := State.inputBytes_eq_none.1 hb
    exact absurd hn (h.input hi a ha)

/-- What an unwritten operand is to `exec`: a register, or the input bytes of an offset command. -/
theorem operandsWritten_iff {i : Instr} {s : State} :
    OperandsWritten i s ↔ s.allWritten (readSet i) = true ∧ (i.isOffset = true → s.inputBytes ≠ none) := by
  refine ⟨fun h => ⟨h.allWritten, fun hi hn => ?_⟩, fun h => ⟨State.allWritten_iff.1 h.1, fun hi a ha hn => ?_⟩⟩
  · obtain ⟨buf, hb⟩ := h.inputBytes hi
    simp [hb] at hn
  · exact h.2 hi (State.inputBytes_eq_none.2 ⟨a, ha, hn⟩)

/-- With an operand unwritten, a command records the fault and ends. -/
theorem exec_of_unwritten {i : Instr} {s : State} (h : ¬OperandsWritten i s) : exec i s = .next s.recordFault := by
  have h' : s.allWritten (readSet i) = false ∨ i.isOffset = true ∧ s.inputBytes = none := by
    rw [operandsWritten_iff] at h
    cases hw : s.allWritten (readSet i)
    · exact .inl rfl
    · simp only [hw, true_and] at h
      push Not at h
      exact .inr h
  cases i
  case hdrDec => simp only [exec, execHdrDec]; exact State.runOnInput_unwritten (h'.imp_right And.right)
  case qDec => simp only [exec, execQDec]; exact State.runOnInput_unwritten (h'.imp_right And.right)
  case beGet16 => simp only [exec, execBeGet16]; exact State.runOnInput_unwritten (h'.imp_right And.right)
  all_goals exact State.withOperands_unwritten (h'.resolve_right (fun hc => by cases hc.1)) _

/-- The shape of a command's answer with its operands written. -/
def EndsAs (i : Instr) (s t : State) : Prop :=
  (∃ e, ErrorCode.code e ∈ statusesOf i ∧ t = s.raise e) ∨
    ∃ u, OnlyWrites (writeSet i) s u ∧ t = u.succeed (writeSet i)

/-- Everything a command can do with its operands written when it answers a next state. -/
theorem exec_ends {i : Instr} {s t : State} (ho : OperandsWritten i s) (h : exec i s = .next t) : EndsAs i s t := by
  have hw := ho.allWritten
  cases i with
  | hdrDec src imm16 =>
    simp only [exec, execHdrDec] at h
    obtain ⟨buf, hb⟩ := ho.inputBytes rfl
    obtain ⟨e, he, rfl⟩ | ⟨u, hu, rfl⟩ := (State.runOnInput_eq_next hw hb).1 h
    · cases hd : headerDecode buf (effOff src imm16 s) with
      | error e' =>
        rw [hd] at he; cases he
        rw [(headerDecode_error.1 hd).1]
        exact .inl ⟨_, by simp [statusesOf, ErrorCode.code], rfl⟩
      | ok hh => rw [hd] at he; cases he
    · cases hd : headerDecode buf (effOff src imm16 s) with
      | error e' => rw [hd] at hu; cases hu
      | ok hh => rw [hd] at hu; cases hu; exact .inr ⟨_, OnlyWrites.hdr _ _ _, rfl⟩
  | hdrEnc =>
    simp only [exec, execHdrEnc] at h
    obtain ⟨e, he, rfl⟩ | ⟨u, hu, rfl⟩ := (State.runCommand_eq_next hw).1 h
    · cases he
    · cases hu; exact .inr ⟨_, OnlyWrites.rbytes _ _, rfl⟩
  | flgUnpack =>
    simp only [exec, execFlgUnpack] at h
    obtain ⟨e, he, rfl⟩ | ⟨u, hu, rfl⟩ := (State.runCommand_eq_next hw).1 h
    · cases he
    · cases hu; exact .inr ⟨_, OnlyWrites.flags _ _, rfl⟩
  | flgPack =>
    simp only [exec, execFlgPack] at h
    obtain ⟨e, he, rfl⟩ | ⟨u, hu, rfl⟩ := (State.runCommand_eq_next hw).1 h
    · cases he
    · cases hu; exact .inr ⟨_, OnlyWrites.val _ _, rfl⟩
  | qDec src imm16 =>
    simp only [exec, execQDec] at h
    obtain ⟨buf, hb⟩ := ho.inputBytes rfl
    obtain ⟨e, he, rfl⟩ | ⟨u, hu, rfl⟩ := (State.runOnInput_eq_next hw hb).1 h
    · cases hd : questionDecode buf (effOff src imm16 s) with
      | error e' =>
        rw [hd] at he; cases he
        rw [questionDecode_error hd]
        exact .inl ⟨_, by simp [statusesOf, ErrorCode.code], rfl⟩
      | ok qm => rw [hd] at he; cases he
    · cases hd : questionDecode buf (effOff src imm16 s) with
      | error e' => rw [hd] at hu; cases hu
      | ok qm => rw [hd] at hu; cases hu; exact .inr ⟨_, OnlyWrites.qrec _ _ _, rfl⟩
  | qEnc =>
    simp only [exec, execQEnc] at h
    obtain ⟨e, he, rfl⟩ | ⟨u, hu, rfl⟩ := (State.runCommand_eq_next hw).1 h
    · split at he <;> cases he
      exact .inl ⟨_, by simp [statusesOf, ErrorCode.code], rfl⟩
    · split at hu <;> cases hu
      exact .inr ⟨_, OnlyWrites.rbytes _ _, rfl⟩
  | qName =>
    simp only [exec, execQName] at h
    obtain ⟨e, he, rfl⟩ | ⟨u, hu, rfl⟩ := (State.runCommand_eq_next hw).1 h
    · cases hd : getName s.config.getnameTrailingDot s.qrec.qname with
      | error e' =>
        rw [hd] at he; cases he
        rw [getName_error hd]
        exact .inl ⟨_, by simp [statusesOf, ErrorCode.code], rfl⟩
      | ok text => rw [hd] at he; cases he
    · cases hd : getName s.config.getnameTrailingDot s.qrec.qname with
      | error e' => rw [hd] at hu; cases hu
      | ok text => rw [hd] at hu; cases hu; exact .inr ⟨_, OnlyWrites.rbytes _ _, rfl⟩
  | rrCons =>
    simp only [exec, execRrCons] at h
    obtain ⟨e, he, rfl⟩ | ⟨u, hu, rfl⟩ := (State.runCommand_eq_next hw).1 h
    · cases hd : recordConstruct s.config s.ttl
          s.addr with
      | error e' =>
        rw [hd] at he; cases he
        rw [recordConstruct_error hd]
        exact .inl ⟨_, by simp [statusesOf, ErrorCode.code], rfl⟩
      | ok r => rw [hd] at he; cases he
    · cases hd : recordConstruct s.config s.ttl
          s.addr with
      | error e' => rw [hd] at hu; cases hu
      | ok r => rw [hd] at hu; cases hu; exact .inr ⟨_, OnlyWrites.rrec _ _, rfl⟩
  | rrEnc =>
    simp only [exec, execRrEnc] at h
    obtain ⟨e, he, rfl⟩ | ⟨u, hu, rfl⟩ := (State.runCommand_eq_next hw).1 h
    · split at he <;> cases he
      exact .inl ⟨_, by simp [statusesOf, ErrorCode.code], rfl⟩
    · split at hu <;> cases hu
      exact .inr ⟨_, OnlyWrites.rbytes _ _, rfl⟩
  | beGet16 src imm16 =>
    simp only [exec, execBeGet16] at h
    obtain ⟨buf, hb⟩ := ho.inputBytes rfl
    obtain ⟨e, he, rfl⟩ | ⟨u, hu, rfl⟩ := (State.runOnInput_eq_next hw hb).1 h
    · split at he <;> cases he
      exact .inl ⟨_, by simp [statusesOf, ErrorCode.code], rfl⟩
    · split at hu <;> cases hu
      exact .inr ⟨_, OnlyWrites.valNext _ _ _, rfl⟩
  | bePut16 =>
    simp only [exec, execBePut16] at h
    obtain ⟨e, he, rfl⟩ | ⟨u, hu, rfl⟩ := (State.runCommand_eq_next hw).1 h
    · cases he
    · cases hu; exact .inr ⟨_, OnlyWrites.rbytes _ _, rfl⟩
  | bePut32 =>
    simp only [exec, execBePut32] at h
    obtain ⟨e, he, rfl⟩ | ⟨u, hu, rfl⟩ := (State.runCommand_eq_next hw).1 h
    · cases he
    · cases hu; exact .inr ⟨_, OnlyWrites.rbytes _ _, rfl⟩

/-- No command is refused. -/
theorem exec_ne_refused (i : Instr) (s : State) (f : Refusal) : exec i s ≠ .refused f := by
  cases i <;>
    simp only [exec, execHdrDec, execHdrEnc, execFlgUnpack, execFlgPack, execQDec, execQEnc, execQName, execRrCons,
      execRrEnc, execBeGet16, execBePut16, execBePut32] <;>
    first | exact State.runOnInput_ne_refused | exact State.runCommand_ne_refused

/-- Everything a command can do when it answers a next state: the record of the fault, or what `exec_ends` says. -/
theorem exec_cases {i : Instr} {s t : State} (h : exec i s = .next t) :
    (¬OperandsWritten i s ∧ t = s.recordFault) ∨ (OperandsWritten i s ∧ EndsAs i s t) := by
  by_cases ho : OperandsWritten i s
  · exact .inr ⟨ho, exec_ends ho h⟩
  · rw [exec_of_unwritten ho] at h
    cases h
    exact .inl ⟨ho, rfl⟩

/-! Each command's answer with its operands written, by what its codec function answers. -/

theorem exec_hdrDec_eq {src : OffsetSource} {imm16 : Half} {s : State} {buf : List Byte}
    (hw : s.allWritten (offsetReads src) = true) (hb : s.inputBytes = some buf) :
    exec (.hdrDec src imm16) s =
      match headerDecode buf (effOff src imm16 s) with
      | .error e => .next (s.raise e)
      | .ok h => .next (({ s with
          hdr := h, next := BitVec.ofNat 16 (effOff src imm16 s + 12) } : State).succeed (hdrRegs ++ [.next])) := by
  simp only [exec, execHdrDec, State.runOnInput, State.withOperands_written hw, hb]
  cases headerDecode buf (effOff src imm16 s) <;> rfl

theorem exec_hdrEnc_eq {s : State} (hw : s.allWritten hdrRegs = true) :
    exec .hdrEnc s = .next (({ s with rbytes := headerEncode s.hdr } : State).succeed [.rbytes]) :=
  State.withOperands_written hw _

theorem exec_flgUnpack_eq {s : State} (hw : s.allWritten [.val] = true) :
    exec .flgUnpack s = .next (({ s with
      hdr := { s.hdr with flags := flagUnpack (s.val.extractLsb' 8 8) (s.val.extractLsb' 0 8) } } : State).succeed
        hdrFlagRegs) :=
  State.withOperands_written hw _

theorem exec_flgPack_eq {s : State} (hw : s.allWritten hdrFlagRegs = true) :
    exec .flgPack s = .next (({ s with
      val := (flagByteA s.hdr.flags ++ flagByteB s.hdr.flags).setWidth 32 } : State).succeed [.val]) :=
  State.withOperands_written hw _

theorem exec_qDec_eq {src : OffsetSource} {imm16 : Half} {s : State} {buf : List Byte}
    (hw : s.allWritten (offsetReads src) = true) (hb : s.inputBytes = some buf) :
    exec (.qDec src imm16) s =
      match questionDecode buf (effOff src imm16 s) with
      | .error e => .next (s.raise e)
      | .ok (q, m) => .next (({ s with qrec := q, next := BitVec.ofNat 16 m } : State).succeed (qrecRegs ++ [.next])) := by
  simp only [exec, execQDec, State.runOnInput, State.withOperands_written hw, hb]
  cases questionDecode buf (effOff src imm16 s) <;> rfl

theorem exec_qEnc_of_valid {s : State} (hw : s.allWritten qrecRegs = true) (h : validName s.qrec.qname = true) :
    exec .qEnc s = .next (({ s with rbytes := questionEncode s.qrec } : State).succeed [.rbytes]) := by
  simp only [exec, execQEnc, State.runCommand, State.withOperands_written hw, if_pos h]
  rfl

theorem exec_qEnc_of_invalid {s : State} (hw : s.allWritten qrecRegs = true) (h : ¬validName s.qrec.qname = true) :
    exec .qEnc s = .next (s.raise .malformedName) := by
  simp only [exec, execQEnc, State.runCommand, State.withOperands_written hw, if_neg h]
  rfl

theorem exec_qName_eq {s : State} (hw : s.allWritten [.qname] = true) :
    exec .qName s =
      match getName s.config.getnameTrailingDot s.qrec.qname with
      | .error e => .next (s.raise e)
      | .ok text => .next (({ s with rbytes := text } : State).succeed [.rbytes]) := by
  simp only [exec, execQName, State.runCommand, State.withOperands_written hw]
  cases getName s.config.getnameTrailingDot s.qrec.qname <;> rfl

theorem exec_rrCons_eq {s : State} (hw : s.allWritten [.ttl, .addr] = true) :
    exec .rrCons s =
      match recordConstruct s.config s.ttl s.addr with
      | .error e => .next (s.raise e)
      | .ok r => .next (({ s with rrec := r } : State).succeed rrecRegs) := by
  simp only [exec, execRrCons, State.runCommand, State.withOperands_written hw]
  cases recordConstruct s.config s.ttl s.addr <;> rfl

theorem exec_rrEnc_of_match {s : State} (hw : s.allWritten rrecRegs = true)
    (h : s.rrec.rdlen.toNat = s.rrec.rdata.length) :
    exec .rrEnc s = .next (({ s with rbytes := recordEncode s.rrec } : State).succeed [.rbytes]) := by
  simp only [exec, execRrEnc, State.runCommand, State.withOperands_written hw, if_pos h]
  rfl

theorem exec_rrEnc_of_mismatch {s : State} (hw : s.allWritten rrecRegs = true)
    (h : s.rrec.rdlen.toNat ≠ s.rrec.rdata.length) : exec .rrEnc s = .next (s.raise .lengthMismatch) := by
  simp only [exec, execRrEnc, State.runCommand, State.withOperands_written hw, if_neg h]
  rfl

theorem exec_beGet16_of_inside {src : OffsetSource} {imm16 : Half} {s : State} {buf : List Byte}
    (hw : s.allWritten (offsetReads src) = true) (hb : s.inputBytes = some buf)
    (h : effOff src imm16 s + 2 ≤ buf.length) :
    exec (.beGet16 src imm16) s = .next (({ s with
      val := (be16 buf (effOff src imm16 s)).setWidth 32
      next := BitVec.ofNat 16 (effOff src imm16 s + 2) } : State).succeed [.val, .next]) := by
  simp only [exec, execBeGet16, State.runOnInput, State.withOperands_written hw, hb]
  rw [if_neg (by omega)]
  rfl

theorem exec_beGet16_of_outside {src : OffsetSource} {imm16 : Half} {s : State} {buf : List Byte}
    (hw : s.allWritten (offsetReads src) = true) (hb : s.inputBytes = some buf)
    (h : buf.length < effOff src imm16 s + 2) : exec (.beGet16 src imm16) s = .next (s.raise .truncatedInput) := by
  simp only [exec, execBeGet16, State.runOnInput, State.withOperands_written hw, hb, if_pos h]
  rfl

theorem exec_bePut16_eq {s : State} (hw : s.allWritten [.val] = true) :
    exec .bePut16 s = .next (({ s with rbytes := put16 (s.val.extractLsb' 0 16) } : State).succeed [.rbytes]) :=
  State.withOperands_written hw _

theorem exec_bePut32_eq {s : State} (hw : s.allWritten [.val] = true) :
    exec .bePut32 s = .next (({ s with rbytes := put32 s.val } : State).succeed [.rbytes]) :=
  State.withOperands_written hw _

/-- A command that writes its results has succeeded. -/
theorem OnlyWrites.succeeded {ws : List Reg} {s u : State} (h : OnlyWrites ws s u) : Succeeded ws s (u.succeed ws) where
  status := rfl
  same := h.succeed_same
  written r := by
    rw [State.succeed, State.mem_markWritten, h.unwritten]
  fault := h.fault

/-- A command that raises has raised. -/
theorem State.raised (s : State) (e : ErrorCode) : Raised e.code s (s.raise e) where
  status := rfl
  same := State.raise_same s e
  written := rfl
  fault := rfl

end Sys2Proof.Machine
end

