-- ==== Sys2Proof/Laws/PerInstr.lean ====
section
/-! SUPPORT. Facts about every command as syntax, one lemma per constructor: the fields of its command word (30_encoding.md
R64, R67, R69). -/

namespace Sys2Proof.Laws.EncodeFields

/-- The word of a command has the command's OPC, RES = 0 and the command's S and IMM16, which are 0 but for an offset
command. -/
def Statement (i : Instr) : Prop :=
  opcField (encode i) = i.opc ∧ resField (encode i) = 0 ∧ sField (encode i) = i.sBit ∧ imm16Field (encode i) = i.imm16 ∧
    (i.isOffset = false → i.sBit = 0 ∧ i.imm16 = 0)

/-- The fields of a word put together of OPC, S and IMM16, read back bit by bit. -/
theorem of_fields (i : Instr) (h : i.isOffset = false → i.sBit = 0 ∧ i.imm16 = 0) : Statement i := by
  refine ⟨?_, ?_, ?_, ?_, h⟩ <;> apply BitVec.eq_of_getLsbD_eq <;> intro k hk <;> interval_cases k <;>
    simp [opcField, resField, sField, imm16Field, encode]

theorem hdrDec (src : OffsetSource) (imm16 : Half) : Statement (.hdrDec src imm16) := of_fields _ nofun
theorem hdrEnc : Statement .hdrEnc := of_fields _ fun _ => ⟨rfl, rfl⟩
theorem flgUnpack : Statement .flgUnpack := of_fields _ fun _ => ⟨rfl, rfl⟩
theorem flgPack : Statement .flgPack := of_fields _ fun _ => ⟨rfl, rfl⟩
theorem qDec (src : OffsetSource) (imm16 : Half) : Statement (.qDec src imm16) := of_fields _ nofun
theorem qEnc : Statement .qEnc := of_fields _ fun _ => ⟨rfl, rfl⟩
theorem qName : Statement .qName := of_fields _ fun _ => ⟨rfl, rfl⟩
theorem rrCons : Statement .rrCons := of_fields _ fun _ => ⟨rfl, rfl⟩
theorem rrEnc : Statement .rrEnc := of_fields _ fun _ => ⟨rfl, rfl⟩
theorem beGet16 (src : OffsetSource) (imm16 : Half) : Statement (.beGet16 src imm16) := of_fields _ nofun
theorem bePut16 : Statement .bePut16 := of_fields _ fun _ => ⟨rfl, rfl⟩
theorem bePut32 : Statement .bePut32 := of_fields _ fun _ => ⟨rfl, rfl⟩

end Sys2Proof.Laws.EncodeFields
end

