-- ==== Sys2Proof/Tests/Slice0.lean ====
section
/-! SUPPORT. Tests: the decoder on words written out from 30_encoding.md R64, the vectors of 95_test_vectors.md (W, V), and for
every obligation with hypotheses a state and operands that meet them. -/

namespace Sys2Proof.Tests
open Sys2Proof Sys2Proof.Machine

/-! ## Well-formedness -/

/-- One ill-formed command for each check: S = 1 with IMM16 = 5 (30_encoding.md R72 clause 4). -/
theorem test_ill_formed_refused :
    Instr.wellFormed (.hdrDec .next 5) = false ∧ Instr.wellFormed (.qDec .next 5) = false ∧
      Instr.wellFormed (.beGet16 .next 5) = false := by decide

/-! ## Decoding: each word is OPC, RES, S, IMM16 from bit 31 down -/

theorem test_decode_hdr_dec : decode 0b00000001_0000000_0_0000000000000101#32 = .ok (.hdrDec .imm 5) := by decide
theorem test_decode_hdr_dec_next : decode 0b00000001_0000000_1_0000000000000000#32 = .ok (.hdrDec .next 0) := by decide
theorem test_decode_hdr_enc : decode 0b00000010_0000000_0_0000000000000000#32 = .ok .hdrEnc := by decide
theorem test_decode_flg_unpack : decode 0b00000011_0000000_0_0000000000000000#32 = .ok .flgUnpack := by decide
theorem test_decode_flg_pack : decode 0b00000100_0000000_0_0000000000000000#32 = .ok .flgPack := by decide
theorem test_decode_q_dec : decode 0b00010000_0000000_0_0000000000001100#32 = .ok (.qDec .imm 12) := by decide
theorem test_decode_q_enc : decode 0b00010001_0000000_0_0000000000000000#32 = .ok .qEnc := by decide
theorem test_decode_q_name : decode 0b00010010_0000000_0_0000000000000000#32 = .ok .qName := by decide
theorem test_decode_rr_cons : decode 0b00100000_0000000_0_0000000000000000#32 = .ok .rrCons := by decide
theorem test_decode_rr_enc : decode 0b00100001_0000000_0_0000000000000000#32 = .ok .rrEnc := by decide
theorem test_decode_be_get16 : decode 0b00110000_0000000_0_1000000000000001#32 = .ok (.beGet16 .imm 0x8001) := by decide
theorem test_decode_be_put16 : decode 0b00110001_0000000_0_0000000000000000#32 = .ok .bePut16 := by decide
theorem test_decode_be_put32 : decode 0b00110010_0000000_0_0000000000000000#32 = .ok .bePut32 := by decide

/-- V71 to V84: the illegal words and their clauses. -/
theorem test_illegal_words :
    decode 0x00000000 = .error .unknownOpcode ∧ decode 0x05000000 = .error .unknownOpcode ∧
    decode 0x33000000 = .error .unknownOpcode ∧ decode 0xFF000000 = .error .unknownOpcode ∧
    decode 0x01020000 = .error .reservedNonzero ∧ decode 0x01FE0000 = .error .reservedNonzero ∧
    decode 0x10800000 = .error .reservedNonzero ∧ decode 0x02010000 = .error .operandNonzero ∧
    decode 0x02000001 = .error .operandNonzero ∧ decode 0x31000100 = .error .operandNonzero ∧
    decode 0x02020000 = .error .reservedNonzero ∧ decode 0x01010001 = .error .immediateWithNext ∧
    decode 0x10010005 = .error .immediateWithNext ∧ decode 0x30010001 = .error .immediateWithNext := by decide

/-- The table's numbering of a row (opcode_table.json): the word itself, in 32 bits. -/
theorem test_table_word : decodeTableWord 32 0x10010000 = some (.qDec .next 0) ∧ decodeTableWord 32 0x05000000 = none := by
  decide

/-- 30_encoding.md R82: lines that are none: a number above 65535, an operand of `hdr.enc`, no digit. -/
theorem test_assembler_refuses : assembleLine "hdr.dec #65536" = none ∧ assembleLine "hdr.enc #0" = none ∧
    assembleLine "q.dec #" = none ∧ assembleLine "q.dec #0x" = none ∧ assembleLine "HDR.ENC" = none := by decide

/-! ## Small states -/

/-- A build with small capacities. -/
def build : Config :=
  { getnameTrailingDot := true, typeA := 1, classIn := 1, ibufSize := 64, qnameMax := 64, addrMax := 20, rnameMax := 20,
    rdataMax := 20 }

/-- Every register written, all zero or empty. -/
def blank : State := { State.reset with config := build, unwritten := [] }

/-- `blank` with input bytes and NEXT. -/
def input (bs : List Byte) (next : Half := 0) : State :=
  { blank with ibuf := Memory.load [] 0 bs, ilen := BitVec.ofNat 16 bs.length, next := next }

/-- `blank` with a question. -/
def question (name : List Byte) : State := { blank with qrec := ⟨name, 1, 1⟩ }

/-- `blank` with TTL and ADDR. -/
def address (ttl : Word) (text : List Byte) : State := { blank with ttl := ttl, addr := text }

/-- `blank` with a record. -/
def record (r : Record) : State := { blank with rrec := r }

/-- `blank` with VAL. -/
def value (v : Word) : State := { blank with val := v }

/-- ILEN = 2 with one byte written. -/
def halfInput : State := { blank with ilen := 2, ibuf := [(0, 0x12)] }

/-- Whether an outcome is a next state with a property. -/
def nextWith (o : Host.Outcome State Fault Refusal) (p : State → Bool) : Bool :=
  match o with
  | .next t => p t
  | .fault _ => false
  | .refused _ => false

/-- V2's input: bytes 0x10 to 0x1D. -/
def countUp : List Byte := [0x10, 0x11, 0x12, 0x13, 0x14, 0x15, 0x16, 0x17, 0x18, 0x19, 0x1A, 0x1B, 0x1C, 0x1D]

/-- "www.com" as a label sequence (W2). -/
def wwwCom : List Byte := [0x03, 0x77, 0x77, 0x77, 0x03, 0x63, 0x6F, 0x6D, 0x00]

/-- "192.168.1.1" (W3). -/
def quadText : List Byte := [0x31, 0x39, 0x32, 0x2E, 0x31, 0x36, 0x38, 0x2E, 0x31, 0x2E, 0x31]

/-- The record W3 constructs. -/
def quadRecord : Record := ⟨[0xC0, 0x0C], 1, 1, 60, 4, [0xC0, 0xA8, 0x01, 0x01]⟩

/-- The header of W1. -/
def w1Header : Header := ⟨0x1234, ⟨1, 0, 0, 0, 1, 1, 0, 0⟩, 0, 0, 0, 0⟩

/-! ## The vectors, one command each -/

/-- V2: the header that ends at the end of the input. -/
theorem test_hdr_dec : nextWith (exec (.hdrDec .imm 2) (input countUp)) (fun t =>
    t.status == 0 && t.hdr == ⟨0x1213, ⟨0, 2, 1, 0, 0, 0, 1, 5⟩, 0x1617, 0x1819, 0x1A1B, 0x1C1D⟩ && t.next == 14) = true := by
  decide

/-- V3: one byte short. -/
theorem test_hdr_dec_truncated : nextWith (exec (.hdrDec .imm 3) (input countUp)) (fun t =>
    t.status == 1 && t.hdr == blank.hdr && t.next == 0) = true := by decide

/-- W1. -/
theorem test_hdr_enc : nextWith (exec .hdrEnc { blank with hdr := w1Header }) (fun t =>
    t.status == 0 && t.rbytes == [0x12, 0x34, 0x81, 0x80, 0, 0, 0, 0, 0, 0, 0, 0]) = true := by decide

/-- V16, and V14: bit 14 is OPCODE[3], and VAL[31:16] is ignored. -/
theorem test_flg_unpack : nextWith (exec .flgUnpack (value 0x4000)) (fun t => t.hdr.flags == ⟨0, 8, 0, 0, 0, 0, 0, 0⟩) = true ∧
    nextWith (exec .flgUnpack (value 0xABCD8180)) (fun t => t.hdr.flags == ⟨1, 0, 0, 0, 1, 1, 0, 0⟩) = true := by decide

/-- P3 step 4: rcode set to 5 after the flags of 0x8583. -/
theorem test_flg_pack : nextWith (exec .flgPack { value 0xFFFFFFFF with hdr := ⟨0, ⟨1, 0, 1, 0, 1, 1, 0, 5⟩, 0, 0, 0, 0⟩ })
    (fun t => t.status == 0 && t.val == 0x00008585) = true := by decide

/-- V29: the scanner stops at the first zero byte, inside a label. -/
theorem test_q_dec : nextWith (exec (.qDec .imm 0) (input [0x02, 0x41, 0x00, 0x42, 0x00, 0x00, 0x01, 0x00, 0x01]))
    (fun t => t.status == 0 && t.qrec == ⟨[0x02, 0x41, 0x00], 0x4200, 0x0001⟩ && t.next == 7) = true := by decide

/-- W4: the input ends at the terminator. -/
theorem test_q_dec_truncated : nextWith (exec (.qDec .imm 0) (input wwwCom)) (fun t =>
    t.status == 1 && t.qrec == blank.qrec && t.next == 0) = true := by decide

/-- V34: label lengths are not checked. -/
theorem test_q_enc : nextWith (exec .qEnc (question [0x05, 0x61, 0x00])) (fun t =>
    t.status == 0 && t.rbytes == [0x05, 0x61, 0x00, 0x00, 0x01, 0x00, 0x01]) = true := by decide

/-- V40: an interior zero byte. -/
theorem test_q_enc_malformed : nextWith (exec .qEnc (question [1, 0x61, 1, 0x62, 0, 0])) (fun t =>
    t.status == 4 && t.rbytes == []) = true := by decide

/-- W2, for both values of GETNAME_TRAILING_DOT. -/
theorem test_q_name : nextWith (exec .qName (question wwwCom)) (fun t =>
      t.rbytes == [0x77, 0x77, 0x77, 0x2E, 0x63, 0x6F, 0x6D, 0x2E]) = true ∧
    nextWith (exec .qName { question wwwCom with config := { build with getnameTrailingDot := false } }) (fun t =>
      t.rbytes == [0x77, 0x77, 0x77, 0x2E, 0x63, 0x6F, 0x6D]) = true := by decide

/-- V34, V36 to V39: names that read as no labels. -/
theorem test_q_name_malformed :
    ([[0x05, 0x61, 0x00], [0x03, 0x61, 0x62], [], [0x03, 0x61, 0x62, 0x63], [0xC0, 0x0C, 0x00]] : List (List Byte)).all
      (fun n => nextWith (exec .qName (question n)) (fun t => t.status == 4 && t.rbytes == [])) = true := by decide

/-- V43, "01.002.0003.4": leading zeros. -/
theorem test_rr_cons : nextWith (exec .rrCons
      (address 0xFFFFFFFF [0x30, 0x31, 0x2E, 0x30, 0x30, 0x32, 0x2E, 0x30, 0x30, 0x30, 0x33, 0x2E, 0x34]))
    (fun t => t.status == 0 && t.rrec == ⟨[0xC0, 0x0C], 1, 1, 0xFFFFFFFF, 4, [1, 2, 3, 4]⟩) = true := by decide

/-- V44 "256.1.1.1", V45 "1.2.3", V47 "1..2.3", V48 "", V49 "1.2.3.4.", V51 "+1.2.3.4", V52 "1.2.3.a". -/
theorem test_rr_cons_malformed :
    ([[0x32, 0x35, 0x36, 0x2E, 0x31, 0x2E, 0x31, 0x2E, 0x31], [0x31, 0x2E, 0x32, 0x2E, 0x33],
      [0x31, 0x2E, 0x2E, 0x32, 0x2E, 0x33], [], [0x31, 0x2E, 0x32, 0x2E, 0x33, 0x2E, 0x34, 0x2E],
      [0x2B, 0x31, 0x2E, 0x32, 0x2E, 0x33, 0x2E, 0x34], [0x31, 0x2E, 0x32, 0x2E, 0x33, 0x2E, 0x61]] : List (List Byte)).all
      (fun a => nextWith (exec .rrCons (address 60 a)) (fun t => t.status == 2 && t.rrec == blank.rrec)) = true := by decide

/-- W3, second half. -/
theorem test_rr_enc : nextWith (exec .rrEnc (record quadRecord)) (fun t =>
    t.rbytes == [0xC0, 0x0C, 0, 1, 0, 1, 0, 0, 0, 0x3C, 0, 4, 0xC0, 0xA8, 1, 1]) = true := by decide

/-- V58 and V59: RDLEN above and below the length of RDATA. -/
theorem test_rr_enc_mismatch :
    nextWith (exec .rrEnc (record ⟨[0xC0, 0x0C], 1, 1, 60, 5, [0x0A, 0, 0, 1]⟩)) (fun t => t.status == 3 && t.rbytes == []) = true ∧
    nextWith (exec .rrEnc (record ⟨[0xC0, 0x0C], 1, 1, 60, 4, [0x0A, 0, 0, 1, 7]⟩)) (fun t => t.status == 3) = true := by decide

/-- V62 and V63: an odd offset at the end of the input, and one byte further. -/
theorem test_be_get16 : nextWith (exec (.beGet16 .imm 3) (input [0x12, 0x34, 0x81, 0x80, 0xFF])) (fun t =>
      t.status == 0 && t.val == 0x000080FF && t.next == 5) = true ∧
    nextWith (exec (.beGet16 .imm 4) (input [0x12, 0x34, 0x81, 0x80, 0xFF])) (fun t => t.status == 1 && t.val == 0) = true := by
  decide

/-- V67. -/
theorem test_be_put16 : nextWith (exec .bePut16 (value 0x0001FFFF)) (fun t => t.rbytes == [0xFF, 0xFF]) = true := by decide

/-- P3 step 7. -/
theorem test_be_put32 : nextWith (exec .bePut32 (value 0xDEADBEEF)) (fun t => t.rbytes == [0xDE, 0xAD, 0xBE, 0xEF]) = true := by
  decide

/-! ## The machine -/

/-- V85: after reset an illegal word gives STATUS 5 and records no fault, although HDR is unwritten. -/
theorem test_illegal_before_unwritten : nextWith (step (State.reset.withFetchWord 32 0x02000001)) (fun t =>
    t.status == 5 && !t.unwrittenOperand && t.host.statuses == [5]) = true := by decide

/-- P4: `hdr.enc` after reset records the fault, and every register is as after reset. -/
theorem test_unwritten_operand : nextWith (step (State.reset.withFetchWord 32 0x02000000)) (fun t =>
    t.unwrittenOperand && t.status == 0 && t.rbytes == [] && t.unwritten == State.reset.unwritten) = true := by decide

/-- 60_exceptions.md R127, with V8's unwritten NEXT and an input too short for a header: the fault is recorded, and STATUS keeps
its code. -/
theorem test_unwritten_before_truncated : nextWith (exec (.hdrDec .next 0) { input [0x12] with unwritten := [.next], status := 4 })
    (fun t => t.unwrittenOperand && t.status == 4) = true := by decide

/-- 10_state.md R37: an input byte below ILEN that nothing has written is an unwritten operand: the fault is recorded, and STATUS,
VAL and NEXT stay. -/
theorem test_unwritten_input : nextWith (exec (.beGet16 .imm 0) { halfInput with val := 7, status := 4 }) (fun t =>
    t.unwrittenOperand && t.status == 4 && t.val == 7 && t.next == 0) = true := by decide

/-- 10_state.md R36: the refused host writes. -/
theorem test_host_refusals :
    runMove (.set .status (.number 0)) blank = .refused .readOnlyRegister ∧
    runMove (.set .hdrZ (.number 8)) blank = .refused .valueTooWide ∧
    runMove (.set .ilen (.number 65)) blank = .refused .ilenAboveIbufSize ∧
    runMove (.set .addr (.bytes (List.replicate 21 0x31))) blank = .refused .overCapacity ∧
    runMove (.setIbuf 64 0) blank = .refused .outsideIbuf ∧ runMove (.readIbuf 64) blank = .refused .outsideIbuf ∧
    runMove (.set .hdrZ (.bytes [])) blank = .refused .wrongKind :=
  ⟨rfl, rfl, rfl, rfl, rfl, rfl, rfl⟩

/-- 20_memory.md R59: a later write to one byte replaces it and leaves its neighbours. -/
theorem test_host_set_ibuf : nextWith (runMove (.setIbuf 1 0x99) (input [0x12, 0x34, 0x56])) (fun t =>
    t.inputBytes == some [0x12, 0x99, 0x56]) = true := by decide

/-! ## Witnesses: for each obligation with hypotheses, what meets them -/

theorem witness_DecodeEncodeAgree :
    Instr.wellFormed (.hdrDec .imm 0xFFFF) = true ∧ Instr.wellFormed (.qDec .next 0) = true := by decide

theorem witness_LegalWordIsTheEncoding : decode 0x0100FFFF = .ok (.hdrDec .imm 0xFFFF) := by decide

theorem witness_IllegalWordsRaise : IllegalByClauses 0x05000000 ∧ IllegalByClauses 0x01020000 ∧ IllegalByClauses 0x02000001 ∧
    IllegalByClauses 0x02010000 ∧ IllegalByClauses 0x30010001 :=
  ⟨.inl (by decide), .inr (.inl (by decide)), .inr (.inr (.inl (by decide))), .inr (.inr (.inl (by decide))),
    .inr (.inr (.inr (by decide)))⟩

theorem witness_AssemblerLines : 65535 < 65536 := by decide

/-- A state whose host is about to issue a word. -/
def issuing (w : Word) (s : State) : State := s.withMoves [.command w, .emit]

theorem witness_StepRunsDecodedCommand :
    (issuing 0x02000000 blank).host.moves = .command 0x02000000 :: [.emit] ∧ decode 0x02000000 = .ok .hdrEnc :=
  ⟨rfl, by decide⟩

theorem witness_StepMakesNextMove : (blank.withMoves [.reset]).host.moves = .reset :: [] := rfl

theorem witness_IdleCoreHolds : State.reset.host.moves = [] := rfl

theorem blank_inv : blank.Inv where
  config := by decide
  memory := List.Pairwise.nil
  addresses := nofun
  ilen := by decide
  qname := by decide
  addr := by decide
  rname := by decide
  rdata := by decide
  rbytes := by decide
  status := by decide
  statusWritten := nofun
  unwrittenOnce := List.nodup_nil

theorem witness_StepKeepsInv : (issuing 0x02000000 blank).Inv ∧ ∃ t, step (issuing 0x02000000 blank) = .next t :=
  ⟨⟨blank_inv.1, blank_inv.2, blank_inv.3, blank_inv.4, blank_inv.5, blank_inv.6, blank_inv.7, blank_inv.8, blank_inv.9,
    blank_inv.10, blank_inv.11, blank_inv.12⟩, ⟨_, rfl⟩⟩

theorem witness_RecordedFaultStays : ∃ t, step (issuing 0x02000000 { blank with unwrittenOperand := true }) = .next t ∧
    (issuing 0x02000000 { blank with unwrittenOperand := true }).unwrittenOperand = true := ⟨_, rfl, rfl⟩

theorem witness_ParametersNeverChange : ∃ t, step (blank.withMoves [.reset]) = .next t := ⟨_, rfl⟩

/-- A command that succeeds, and one that raises. -/
theorem witness_CommandsAreAllOrNothing : OperandsWritten .hdrEnc blank ∧ OperandsWritten .qEnc blank ∧
    (∃ t, exec .hdrEnc blank = .next t ∧ t.status = 0) ∧ ∃ t, exec .qEnc blank = .next t ∧ t.status ≠ 0 :=
  ⟨⟨by decide, nofun⟩, ⟨by decide, nofun⟩, ⟨_, rfl, rfl⟩, _, rfl, by decide⟩

theorem witness_StatusIsNeverRead : OperandsWritten .qEnc blank := ⟨by decide, nofun⟩

theorem witness_CommandsLeaveInputsAlone : ∃ t, exec (.hdrDec .imm 2) (input countUp) = .next t := ⟨_, rfl⟩

theorem witness_StatusCodesByCommand : OperandsWritten (.hdrDec .imm 3) (input countUp) ∧
    ∃ t, exec (.hdrDec .imm 3) (input countUp) = .next t := ⟨⟨by decide, fun _ => by decide⟩, _, rfl⟩

/-- Both sides of each equivalence: operands written; a byte below ILEN unwritten; a register unwritten. -/
theorem witness_CommandsFaultExactlyOnUnwrittenOperands : OperandsWritten (.beGet16 .next 0) (input [0x12, 0x34]) ∧
    ¬OperandsWritten (.beGet16 .next 0) halfInput ∧ ¬OperandsWritten .hdrEnc State.reset :=
  ⟨⟨by decide, fun _ => by decide⟩, fun h => h.input rfl 1 (by decide) rfl, fun h => h.registers .hdrId (by decide) (by decide)⟩

/-- Two states that differ in what `be.get16` does not read. -/
theorem witness_ResultDependsOnOperandsOnly :
    (input [0x12, 0x34]).config = ({ input [0x12, 0x34] with val := 7, status := 3 } : State).config ∧
      OperandsWritten (.beGet16 .next 0) (input [0x12, 0x34]) ∧
      OperandsWritten (.beGet16 .next 0) { input [0x12, 0x34] with val := 7, status := 3 } ∧
      (∀ r ∈ readSet (.beGet16 .next 0),
        (input [0x12, 0x34]).value r = ({ input [0x12, 0x34] with val := 7, status := 3 } : State).value r) ∧
      (Instr.isOffset (.beGet16 .next 0) = true → ∀ a, a < (input [0x12, 0x34]).ilen.toNat →
        (input [0x12, 0x34]).ibuf.read a = ({ input [0x12, 0x34] with val := 7, status := 3 } : State).ibuf.read a) ∧
      ∃ t, exec (.beGet16 .next 0) (input [0x12, 0x34]) = .next t ∧ t.status = 0 :=
  ⟨rfl, ⟨by decide, fun _ => by decide⟩, ⟨by decide, fun _ => by decide⟩, by decide, fun _ _ _ => rfl, _, rfl, rfl⟩

/-- One field unwritten is enough; one byte is; none is the other clause. -/
theorem witness_UnwrittenOperandIsRecorded :
    (∃ r ∈ readSet .hdrEnc, r ∈ ({ blank with unwritten := [.hdrArcount] } : State).unwritten) ∧
      (Instr.isOffset (.beGet16 .next 0) = true ∧ ∃ a, a < halfInput.ilen.toNat ∧ halfInput.ibuf.read a = none) ∧
      OperandsWritten .hdrEnc blank ∧ ∃ t, exec .hdrEnc blank = .next t :=
  ⟨⟨.hdrArcount, by decide, by decide⟩, ⟨rfl, 1, by decide, by decide⟩, ⟨by decide, nofun⟩, _, rfl⟩

/-- NEXT ends at ILEN exactly. -/
theorem witness_NextStaysInsideInput : Instr.isOffset (.hdrDec .imm 2) = true ∧
    OperandsWritten (.hdrDec .imm 2) (input countUp) ∧
    ∃ t, exec (.hdrDec .imm 2) (input countUp) = .next t ∧ t.status = 0 ∧ t.next = t.ilen :=
  ⟨rfl, ⟨by decide, fun _ => by decide⟩, _, rfl, rfl, rfl⟩

theorem witness_BigEndianPrimitives : 0 + 2 ≤ ([0x12, 0x34] : List Byte).length := by decide

theorem witness_MarshallerLaws : 1 + 2 ≤ ([0, 0x12, 0x34] : List Byte).length ∧ memRead [0, 0x12, 0x34] 1 2 = put16 0x1234 := by
  decide

/-- The terminator of W2's name. -/
theorem wwwCom_terminator : IsTerminator (wwwCom ++ [0x00, 0x01, 0x00, 0x01]) 0 8 := by
  refine ⟨by decide, by decide, fun i _ hi => ?_⟩
  interval_cases i <;> decide

/-- Each clause at its boundary: V3 and V2 for HDR_DEC; V27 (no terminator), V26 (one byte short) and V25 for Q_DEC; V63 and
V62 for BE_GET16. -/
theorem witness_TruncatedInputExactly :
    ((input countUp).inputBytes = some countUp ∧ (input countUp).allWritten (offsetReads .imm) = true ∧
      effOff .imm 3 (input countUp) + 12 > (input countUp).ilen.toNat ∧
      ¬ effOff .imm 2 (input countUp) + 12 > (input countUp).ilen.toNat) ∧
    ((input [0x01, 0x61]).inputBytes = some [0x01, 0x61] ∧ ¬ ∃ z, IsTerminator [0x01, 0x61] 0 z) ∧
    (IsTerminator (wwwCom ++ [0, 1, 0]) 0 8 ∧ 8 + 5 > (input (wwwCom ++ [0, 1, 0])).ilen.toNat) ∧
    (IsTerminator [0, 0, 1, 0, 1] 0 0 ∧ ¬ 0 + 5 > (input [0, 0, 1, 0, 1]).ilen.toNat) ∧
    (effOff .imm 4 (input [0x12, 0x34, 0x81, 0x80, 0xFF]) + 2 > (input [0x12, 0x34, 0x81, 0x80, 0xFF]).ilen.toNat ∧
      ¬ effOff .imm 3 (input [0x12, 0x34, 0x81, 0x80, 0xFF]) + 2 > (input [0x12, 0x34, 0x81, 0x80, 0xFF]).ilen.toNat) := by
  refine ⟨by decide, ⟨by decide, ?_⟩, ⟨⟨by decide, by decide, fun i _ hi => ?_⟩, by decide⟩,
    ⟨⟨by decide, by decide, fun i _ hi => ?_⟩, by decide⟩, by decide⟩
  · rintro ⟨z, -, h, -⟩
    rcases z with _ | _ | z <;> simp at h
  · interval_cases i <;> decide
  · omega

theorem witness_HdrDecResult : (input countUp).inputBytes = some countUp ∧
    (input countUp).allWritten (offsetReads .imm) = true ∧ effOff .imm 2 (input countUp) + 12 ≤ (input countUp).ilen.toNat ∧
    (input countUp 2).allWritten (offsetReads .next) = true ∧
    effOff .next 0 (input countUp 2) + 12 ≤ (input countUp 2).ilen.toNat := by decide

/-- V24: FLG_PACK with HDR.id and the counts unwritten. Also what HDR_ENC, FLG_UNPACK, BE_PUT16 and BE_PUT32 ask of a state. -/
theorem witness_FlgPackResult :
    ({ blank with unwritten := [.hdrId, .hdrQdcount] } : State).allWritten hdrFlagRegs = true := by decide

theorem witness_HdrEncResult : blank.allWritten hdrRegs = true := by decide

theorem witness_FlgUnpackResult : (value 0xABCD8180).allWritten [.val] = true := by decide

theorem witness_BePut16Result : (value 0x0001FFFF).allWritten [.val] = true := by decide

theorem witness_BePut32Result : (value 0xFFFFFFFF).allWritten [.val] = true := by decide

theorem witness_HeaderLaws : 2 + 12 ≤ countUp.length ∧ ∃ h, headerDecode countUp 2 = .ok h := ⟨by decide, _, rfl⟩

theorem witness_QDecResult :
    (input (wwwCom ++ [0, 1, 0, 1])).inputBytes = some (wwwCom ++ [0, 1, 0, 1]) ∧
      (input (wwwCom ++ [0, 1, 0, 1])).allWritten (offsetReads .imm) = true ∧
      IsTerminator (wwwCom ++ [0, 1, 0, 1]) (effOff .imm 0 (input (wwwCom ++ [0, 1, 0, 1]))) 8 ∧
      8 + 5 ≤ (input (wwwCom ++ [0, 1, 0, 1])).ilen.toNat :=
  ⟨by decide, by decide, wwwCom_terminator, by decide⟩

/-- W2's name is valid. -/
theorem wwwCom_valid : ValidName wwwCom := by
  refine ⟨by decide, by decide, fun i hi => ?_⟩
  have hi : i < 8 := hi
  interval_cases i <;> decide

/-- The root name, the shortest one, is valid. -/
theorem root_valid : ValidName [0] := ⟨by decide, by decide, nofun⟩

/-- The empty name is not, nor one with an interior zero byte (V37, V40). -/
theorem witness_QEncResult : (question wwwCom).allWritten qrecRegs = true ∧ ValidName wwwCom ∧ ¬ ValidName [] ∧
    ¬ ValidName [1, 0x61, 1, 0x62, 0, 0] :=
  ⟨by decide, wwwCom_valid, fun h => absurd h.1 (by decide), fun h => h.2.2 4 (by decide) (by decide)⟩

theorem witness_ValidNameExactly : ∃ q m, questionDecode [0, 0, 1, 0, 1] 0 = .ok (q, m) := ⟨_, _, rfl⟩

theorem witness_QNameResult : (question wwwCom).allWritten [.qname] = true ∧
    ReadsAs wwwCom [[0x77, 0x77, 0x77], [0x63, 0x6F, 0x6D]] ∧ ReadsAs [0] [] :=
  ⟨by decide, ⟨by decide, [], by decide⟩, by decide, [], by decide⟩

/-- V34 (a label overruns the name) and V38 (the name runs off its end). -/
theorem witness_QNameMalformed : (question [0x05, 0x61, 0x00]).allWritten [.qname] = true ∧
    (¬ ∃ labels, ReadsAs [0x05, 0x61, 0x00] labels) ∧ ¬ ∃ labels, ReadsAs [0x03, 0x61, 0x62, 0x63] labels := by
  refine ⟨by decide, ?_, ?_⟩
  · rintro ⟨labels, hl, rest, h⟩
    cases labels with
    | nil => simp [labelBytes] at h
    | cons l ls =>
      have hb := hl l (by simp)
      simp only [labelBytes, List.flatMap_cons, List.cons_append, List.cons.injEq] at h
      have h5 : l.length = 5 := by
        have := congrArg BitVec.toNat h.1
        simp at this
        omega
      have := congrArg List.length h.2
      simp at this
      omega
  · rintro ⟨labels, hl, rest, h⟩
    cases labels with
    | nil => simp [labelBytes] at h
    | cons l ls =>
      have hb := hl l (by simp)
      simp only [labelBytes, List.flatMap_cons, List.cons_append, List.cons.injEq] at h
      have h3 : l.length = 3 := by
        have := congrArg BitVec.toNat h.1
        simp at this
        omega
      have := congrArg List.length h.2
      simp at this
      omega

theorem witness_QNameTextLength : ValidName wwwCom ∧ (∃ text, getName true wwwCom = .ok text) ∧
    (∃ text, getName false wwwCom = .ok text) ∧ ValidName [0] ∧ getName true [0] = .ok [] ∧ getName false [0] = .ok [] :=
  ⟨wwwCom_valid, ⟨_, rfl⟩, ⟨_, rfl⟩, root_valid, rfl, rfl⟩

theorem witness_QuestionRoundTrip : ValidName (⟨wwwCom, 1, 1⟩ : Question).qname ∧
    (∃ q m, questionDecode (wwwCom ++ [0, 1, 0, 1]) 0 = .ok (q, m)) ∧
    1 + 1 < (⟨[1, 0, 0], 1, 1⟩ : Question).qname.length ∧ (⟨[1, 0, 0], 1, 1⟩ : Question).qname[1]? = some 0 :=
  ⟨wwwCom_valid, ⟨_, _, rfl⟩, by decide, rfl⟩

theorem witness_QuestionOffsetAdvance : (∃ q m, questionDecode (wwwCom ++ [0, 1, 0, 1]) 0 = .ok (q, m)) ∧
    IsTerminator (wwwCom ++ [0, 1, 0, 1]) 0 8 ∧ ValidName wwwCom ∧ ValidName [0] :=
  ⟨⟨_, _, rfl⟩, wwwCom_terminator, wwwCom_valid, root_valid⟩

theorem witness_RrConsResult : (address 60 quadText).allWritten [.ttl, .addr] = true ∧
    IsDottedQuad quadText [192, 168, 1, 1] := by
  refine ⟨by decide, [0x31, 0x39, 0x32], [0x31, 0x36, 0x38], [0x31], [0x31], 192, 168, 1, 1, by decide, ?_, ?_, ?_, ?_, rfl⟩ <;>
    exact ⟨by decide, by decide, by decide, by decide⟩

/-- V48 (the empty text) and V44 ("256.1.1.1", one above the largest octet). -/
theorem witness_RrConsMalformed : (address 60 []).allWritten [.ttl, .addr] = true ∧ (¬ ∃ v, IsDottedQuad [] v) ∧
    ¬ ∃ v, IsDottedQuad [0x32, 0x35, 0x36, 0x2E, 0x31, 0x2E, 0x31, 0x2E, 0x31] v := by
  refine ⟨by decide, ?_, ?_⟩
  · rintro ⟨v, t₀, t₁, t₂, t₃, v₀, v₁, v₂, v₃, h, -⟩
    simp at h
  · rintro ⟨v, t₀, t₁, t₂, t₃, v₀, v₁, v₂, v₃, h, ⟨-, hd, hv, hle⟩, -⟩
    have ht : t₀ = [0x32, 0x35, 0x36] := by
      have hp : ∀ c ∈ t₀, (c != (0x2E : Byte)) = true := fun c hc => by
        have := hd c hc
        simp only [bne_iff_ne, ne_eq]
        rintro rfl
        exact absurd this.1 (by decide)
      have := congrArg (List.takeWhile (fun c => c != (0x2E : Byte))) h
      rw [List.takeWhile_append_of_pos hp] at this
      simpa using this.symm
    subst ht
    rw [hv] at hle
    exact absurd hle (by decide)

/-- The match, and the two mismatches next to it (V58, V59). -/
theorem witness_RrEncResult : (record quadRecord).allWritten rrecRegs = true ∧
    quadRecord.rdlen.toNat = quadRecord.rdata.length ∧
    (record { quadRecord with rdlen := 5 }).rrec.rdlen.toNat ≠ (record { quadRecord with rdlen := 5 }).rrec.rdata.length ∧
    (record { quadRecord with rdlen := 3 }).rrec.rdlen.toNat ≠ (record { quadRecord with rdlen := 3 }).rrec.rdata.length := by
  decide

theorem witness_ConstructedRecordLaws : (address 60 quadText).allWritten [.ttl, .addr] = true ∧
    ∃ t, exec .rrCons (address 60 quadText) = .next t ∧ t.status = 0 := ⟨by decide, _, rfl, rfl⟩

theorem witness_BeGet16Result : (input [0x12, 0x34]).inputBytes = some [0x12, 0x34] ∧
    (input [0x12, 0x34]).allWritten (offsetReads .next) = true ∧
    effOff .next 0 (input [0x12, 0x34]) + 2 ≤ (input [0x12, 0x34]).ilen.toNat := by decide

/-- A datagram of exactly IBUF_SIZE bytes, and one byte more. -/
theorem witness_HostLoadResult : blank.config.wf = true ∧
    (List.replicate 64 (0 : Byte)).length ≤ blank.config.ibufSize ∧
    blank.config.ibufSize < (List.replicate 65 (0 : Byte)).length := by decide

/-- Each kind of field at its limits. -/
theorem witness_HostSetExactly : Reg.hdrOpcode ≠ .status ∧ Reg.hdrOpcode ≠ .rbytes ∧ Reg.hdrOpcode.width = some 4 ∧
    15 < 2 ^ 4 ∧ 2 ^ 4 ≤ 16 ∧ (Reg.ilen.width = some 16 ∧ 64 < 2 ^ 16 ∧ 64 ≤ blank.config.ibufSize ∧
    65 < 2 ^ 16 ∧ blank.config.ibufSize < 65) ∧ Reg.addr.width = none ∧
    (List.replicate 20 (0x31 : Byte)).length ≤ Reg.addr.capacity blank.config ∧
    Reg.addr.capacity blank.config < (List.replicate 21 (0x31 : Byte)).length := by decide

theorem witness_HostReadResult : Reg.hdrId ∉ blank.unwritten ∧ Reg.hdrId ∈ State.reset.unwritten := by decide

theorem witness_HostEmitResult : Reg.rbytes ∉ blank.unwritten := by decide

theorem witness_RoundTripThroughTheHost : blank.Inv ∧ blank.allWritten hdrRegs = true ∧
    (question [0]).Inv ∧ (question [0]).allWritten qrecRegs = true ∧
    (∃ t u, exec .hdrEnc blank = .next t ∧ runMove (.load t.rbytes) t = .next u) ∧
    ∃ t u, exec .qEnc (question [0]) = .next t ∧ t.status = 0 ∧ runMove (.load t.rbytes) t = .next u :=
  ⟨blank_inv, by decide, ⟨blank_inv.1, blank_inv.2, blank_inv.3, blank_inv.4, by decide, blank_inv.6, blank_inv.7, blank_inv.8,
    blank_inv.9, blank_inv.10, blank_inv.11, blank_inv.12⟩, by decide, ⟨_, _, rfl, rfl⟩, _, _, rfl, rfl, rfl⟩

/-- Each clause: an illegal word; an unwritten NEXT; ILEN = 2 with one byte written; all written (V60's first bytes). -/
theorem witness_FirstErrorIsReported : (∃ c, decode 0x02000001 = .error c) ∧ decode 0x30010000 = .ok (.beGet16 .next 0) ∧
    ¬OperandsWritten (.beGet16 .next 0) { input [0x12, 0x34] with unwritten := [.next] } ∧
    ¬OperandsWritten (.beGet16 .next 0) halfInput ∧ OperandsWritten (.beGet16 .next 0) (input [0x12, 0x34]) :=
  ⟨⟨_, rfl⟩, by decide, fun h => h.registers .next (by decide) (by decide), fun h => h.input rfl 1 (by decide) rfl,
    ⟨by decide, fun _ => by decide⟩⟩

end Sys2Proof.Tests
end

section
/-! PROOF. The invariant of the state is kept by every step (O13): first the updates of the state, then the results the
commands write, then the twelve commands, then the host's moves. -/

namespace Sys2Proof

/-! The parameters (00_scope.md R11, R12). -/

theorem Config.wf_iff {c : Config} : c.wf = true ↔
    12 ≤ c.ibufSize ∧ c.ibufSize ≤ 65535 ∧ c.ibufSize ≤ c.qnameMax + 4 ∧ 2 ≤ c.rnameMax ∧ 4 ≤ c.rdataMax ∧
      c.rdataMax ≤ 65535 := by
  simp [Config.wf, and_assoc]

/-- RBYTES_MAX holds the output of every command, each a term of its maximum: a header (and so two or four bytes of VAL), a
question, a record, and the text of a name. -/
theorem Config.rbytesMax_bounds (c : Config) :
    12 ≤ c.rbytesMax ∧ c.qnameMax + 4 ≤ c.rbytesMax ∧ c.rnameMax + 10 + c.rdataMax ≤ c.rbytesMax ∧
      2 * c.qnameMax ≤ c.rbytesMax := by
  simp only [Config.rbytesMax]
  omega

end Sys2Proof

namespace Sys2Proof.Machine

/-! The updates of the state that every command or move is made of. -/

theorem State.Inv.markWritten {s : State} (h : s.Inv) (ws : List Reg) : (s.markWritten ws).Inv :=
  { h with
    statusWritten := fun hm => h.statusWritten (State.mem_markWritten.1 hm).1
    unwrittenOnce := h.unwrittenOnce.filter _ }

theorem State.Inv.recordFault {s : State} (h : s.Inv) : s.recordFault.Inv := { h with }

/-- Every error has one of the codes 1 to 5 (60_exceptions.md R120). -/
theorem ErrorCode.code_le (e : ErrorCode) : e.code.toNat ≤ 5 := by
  cases e <;> decide

theorem State.Inv.raise {s : State} (h : s.Inv) (e : ErrorCode) : (s.raise e).Inv :=
  { h with status := e.code_le }

theorem State.Inv.succeed {s : State} (h : s.Inv) (ws : List Reg) : (s.succeed ws).Inv :=
  { h.markWritten ws with status := Nat.zero_le 5 }

theorem State.Inv.logStatus {s : State} (h : s.Inv) : s.logStatus.Inv := { h with }

theorem State.Inv.withMoves {s : State} (h : s.Inv) (ms : List HostMove) : (s.withMoves ms).Inv := { h with }

theorem State.Inv.keepRead {s : State} (h : s.Inv) (v : HostValue) : (s.keepRead v).Inv := { h with }

theorem State.Inv.countDraw {s : State} (h : s.Inv) (drawn : Bool) : (s.countDraw drawn).Inv := { h with }

theorem State.Inv.setHost {s : State} (h : s.Inv) (side : HostSide) : ({ s with host := side } : State).Inv :=
  { h with }

theorem State.Inv.setRbytes {s : State} (h : s.Inv) {bs : List Byte} (hl : bs.length ≤ s.config.rbytesMax) :
    ({ s with rbytes := bs } : State).Inv := { h with rbytes := hl }

/-- Bytes loaded inside IBUF_SIZE keep the invariant (10_state.md R20, R36). -/
theorem State.Inv.loadIbuf {s : State} (h : s.Inv) {bs : List Byte} (hl : bs.length ≤ s.config.ibufSize) :
    ({ s with ibuf := s.ibuf.load 0 bs, ilen := BitVec.ofNat 16 bs.length } : State).Inv :=
  { h with
    memory := Memory.load_wf h.memory 0 bs
    addresses := by
      intro c hc
      rcases Memory.mem_load hc with ⟨-, hlt⟩ | hold
      · exact hlt.trans_le ((Nat.zero_add _).trans_le hl)
      · exact h.addresses c hold
    ilen := (Nat.mod_le bs.length _).trans hl }

/-- A byte written inside IBUF_SIZE keeps the invariant (10_state.md R20). -/
theorem State.Inv.writeIbuf {s : State} (h : s.Inv) {index : Nat} (hi : index < s.config.ibufSize) (b : Byte) :
    ({ s with ibuf := s.ibuf.write index b } : State).Inv :=
  { h with
    memory := Memory.write_wf h.memory index b
    addresses := by
      intro c hc
      rcases Memory.mem_write hc with rfl | hold
      · exact hi
      · exact h.addresses c hold }

/-- A number stored keeps the invariant; only ILEN has a bound of its own (10_state.md R36). -/
theorem State.Inv.storeNumber {s : State} (h : s.Inv) {n : Nat} {r : Reg}
    (hn : r = .ilen → n ≤ s.config.ibufSize) : (s.storeNumber n r).Inv := by
  cases r
  case ilen => exact { h with ilen := (Nat.mod_le n _).trans (hn rfl) }
  all_goals exact { h with }

/-- Bytes stored inside the capacity of their register keep the invariant (10_state.md R36). -/
theorem State.Inv.storeBytes {s : State} (h : s.Inv) {bs : List Byte} {r : Reg}
    (hl : bs.length ≤ r.capacity s.config) : (s.storeBytes bs r).Inv := by
  cases r
  case qname => exact { h with qname := hl }
  case rname => exact { h with rname := hl }
  case rdata => exact { h with rdata := hl }
  case addr => exact { h with addr := hl }
  all_goals exact { h with }

/-! The results of the commands stay inside their capacities. -/

/-- The input of a decode command is inside IBUF_SIZE (10_state.md R21). -/
theorem State.Inv.inputBytes_length_le {s : State} (h : s.Inv) {buf : List Byte} (hb : s.inputBytes = some buf) :
    buf.length ≤ s.config.ibufSize :=
  State.inputBytes_length hb ▸ h.ilen

/-- A name decoded from the input leaves room for the four bytes after it. -/
theorem questionDecode_qname_length {buf : List Byte} {o : Nat} {q : Question} {m : Nat}
    (hd : questionDecode buf o = .ok (q, m)) : q.qname.length + 4 ≤ buf.length := by
  obtain ⟨z, hz, hlen, -, rfl⟩ := questionDecode_eq_ok.1 hd
  have hoz : o ≤ z := (findZero_eq_ok.1 hz).1
  simp only [memRead_length (show o + (z - o + 1) ≤ buf.length by omega)]
  omega

/-- A constructed record has a name of two bytes and data of four (43_record.md R109). -/
theorem recordConstruct_lengths {c : Config} {ttl : Word} {s : List Byte} {r : Record}
    (hr : recordConstruct c ttl s = .ok r) : r.rname.length = 2 ∧ r.rdata.length = 4 := by
  obtain ⟨d, hd, rfl⟩ := recordConstruct_eq_ok.1 hr
  exact ⟨rfl, parseDottedQuad_length hd⟩

theorem State.Inv.questionEncode_fits {s : State} (h : s.Inv) :
    (questionEncode s.qrec).length ≤ s.config.rbytesMax := by
  obtain ⟨-, hq, -, -⟩ := s.config.rbytesMax_bounds
  have := h.qname
  rw [questionEncode_length]
  omega

theorem State.Inv.recordEncode_fits {s : State} (h : s.Inv) :
    (recordEncode s.rrec).length ≤ s.config.rbytesMax := by
  obtain ⟨-, -, hr, -⟩ := s.config.rbytesMax_bounds
  have := h.rname
  have := h.rdata
  rw [recordEncode_length]
  omega

theorem State.Inv.getName_fits {s : State} (h : s.Inv) {dot : Bool} {text : List Byte}
    (ht : getName dot s.qrec.qname = .ok text) : text.length ≤ s.config.rbytesMax := by
  obtain ⟨-, -, -, hn⟩ := s.config.rbytesMax_bounds
  have := getName_length ht
  have := h.qname
  omega

/-! The commands. -/

theorem exceptMap_eq_ok {α β : Type} {r : Except ErrorCode α} {f : α → β} {b : β} :
    r.map f = .ok b ↔ ∃ a, r = .ok a ∧ f a = b := by
  cases r <;> simp [Except.map]

/-- A command over register fields keeps the invariant when its work does. -/
theorem State.Inv.runCommand {s t : State} (h : s.Inv) {rs ws : List Reg} {body : State → Except ErrorCode State}
    (hbody : ∀ u, body s = .ok u → u.Inv) (ht : s.runCommand rs ws body = .next t) : t.Inv := by
  cases hw : s.allWritten rs with
  | false =>
    rw [State.runCommand, State.withOperands_unwritten hw] at ht
    cases ht
    exact h.recordFault
  | true =>
    obtain ⟨e, -, rfl⟩ | ⟨u, hu, rfl⟩ := (State.runCommand_eq_next hw).1 ht
    · exact h.raise e
    · exact (hbody u hu).succeed ws

/-- A command over the input bytes keeps the invariant when its work does. -/
theorem State.Inv.runOnInput {s t : State} (h : s.Inv) {rs ws : List Reg}
    {body : State → List Byte → Except ErrorCode State}
    (hbody : ∀ buf u, s.inputBytes = some buf → body s buf = .ok u → u.Inv)
    (ht : s.runOnInput rs ws body = .next t) : t.Inv := by
  by_cases ho : s.allWritten rs = false ∨ s.inputBytes = none
  · rw [State.runOnInput_unwritten ho] at ht
    cases ht
    exact h.recordFault
  · obtain ⟨hw, hb⟩ := not_or.1 ho
    obtain ⟨buf, hb⟩ := Option.ne_none_iff_exists'.1 hb
    obtain ⟨e, -, rfl⟩ | ⟨u, hu, rfl⟩ := (State.runOnInput_eq_next (by simpa using hw) hb).1 ht
    · exact h.raise e
    · exact (hbody buf u hb hu).succeed ws

/-- Every command keeps the invariant: a decoded name fits because the input does, a constructed record because R12 leaves
room for it, and an output because RBYTES_MAX is the largest of them. -/
theorem exec_keeps_inv {i : Instr} {s t : State} (h : s.Inv) (ht : exec i s = .next t) : t.Inv := by
  obtain ⟨-, -, hibuf, hrname, hrdata, -⟩ := Config.wf_iff.1 h.config
  obtain ⟨hheader, -, -, -⟩ := s.config.rbytesMax_bounds
  cases i with
  | hdrDec src imm16 =>
    simp only [exec, execHdrDec] at ht
    refine h.runOnInput (fun buf u _ hu => ?_) ht
    obtain ⟨hd, -, rfl⟩ := exceptMap_eq_ok.1 hu
    exact { h with }
  | hdrEnc =>
    simp only [exec, execHdrEnc] at ht
    refine h.runCommand (fun u hu => ?_) ht
    cases hu
    exact h.setRbytes hheader
  | flgUnpack =>
    simp only [exec, execFlgUnpack] at ht
    refine h.runCommand (fun u hu => ?_) ht
    cases hu
    exact { h with }
  | flgPack =>
    simp only [exec, execFlgPack] at ht
    refine h.runCommand (fun u hu => ?_) ht
    cases hu
    exact { h with }
  | qDec src imm16 =>
    simp only [exec, execQDec] at ht
    refine h.runOnInput (fun buf u hb hu => ?_) ht
    obtain ⟨⟨q, m⟩, hq, rfl⟩ := exceptMap_eq_ok.1 hu
    have hname := questionDecode_qname_length hq
    have hbuf := h.inputBytes_length_le hb
    exact { h with qname := (by omega : q.qname.length ≤ s.config.qnameMax) }
  | qEnc =>
    simp only [exec, execQEnc] at ht
    refine h.runCommand (fun u hu => ?_) ht
    split at hu <;> cases hu
    exact h.setRbytes h.questionEncode_fits
  | qName =>
    simp only [exec, execQName] at ht
    refine h.runCommand (fun u hu => ?_) ht
    obtain ⟨text, htext, rfl⟩ := exceptMap_eq_ok.1 hu
    exact h.setRbytes (h.getName_fits htext)
  | rrCons =>
    simp only [exec, execRrCons] at ht
    refine h.runCommand (fun u hu => ?_) ht
    obtain ⟨r, hr, rfl⟩ := exceptMap_eq_ok.1 hu
    obtain ⟨hn, hd⟩ := recordConstruct_lengths hr
    exact { h with rname := hn.trans_le hrname, rdata := hd.trans_le hrdata }
  | rrEnc =>
    simp only [exec, execRrEnc] at ht
    refine h.runCommand (fun u hu => ?_) ht
    split at hu <;> cases hu
    exact h.setRbytes h.recordEncode_fits
  | beGet16 src imm16 =>
    simp only [exec, execBeGet16] at ht
    refine h.runOnInput (fun buf u _ hu => ?_) ht
    split at hu <;> cases hu
    exact { h with }
  | bePut16 =>
    simp only [exec, execBePut16] at ht
    refine h.runCommand (fun u hu => ?_) ht
    cases hu
    exact h.setRbytes (le_trans (by simp) hheader)
  | bePut32 =>
    simp only [exec, execBePut32] at ht
    refine h.runCommand (fun u hu => ?_) ht
    cases hu
    exact h.setRbytes (le_trans (by simp) hheader)

theorem logOutcome_eq_next {o : Host.Outcome State Fault Refusal} {t : State} :
    logOutcome o = .next t ↔ ∃ u, o = .next u ∧ t = u.logStatus := by
  cases o <;> simp [logOutcome, eq_comm]

theorem issue_keeps_inv {w : Word} {s t : State} (h : s.Inv) (ht : issue w s = .next t) : t.Inv := by
  cases hd : decode w with
  | ok i =>
    rw [issue_ok hd] at ht
    obtain ⟨u, hu, rfl⟩ := logOutcome_eq_next.1 ht
    exact (exec_keeps_inv h hu).logStatus
  | error c =>
    rw [issue_illegal hd] at ht
    cases ht
    exact (h.raise _).logStatus

/-! The host's moves: first what each that can be refused does when it is not. -/

theorem hostLoad_eq_next {bs : List Byte} {s t : State} :
    hostLoad bs s = .next t ↔ bs.length ≤ s.config.ibufSize ∧
      t = ({ s with ibuf := s.ibuf.load 0 bs, ilen := BitVec.ofNat 16 bs.length } : State).markWritten [.ilen] := by
  rw [hostLoad]
  split
  · next hlt => simp [Nat.not_le.2 hlt]
  · next hge => simp [Nat.not_lt.1 hge, eq_comm]

theorem hostSetIbuf_eq_next {index : Nat} {b : Byte} {s t : State} :
    hostSetIbuf index b s = .next t ↔ index < s.config.ibufSize ∧ t = { s with ibuf := s.ibuf.write index b } := by
  rw [hostSetIbuf]
  split
  · next hle => simp [Nat.not_lt.2 hle]
  · next hgt => simp [Nat.not_le.1 hgt, eq_comm]

theorem hostReadIbuf_eq_next {index : Nat} {s t : State} :
    hostReadIbuf index s = .next t ↔ index < s.config.ibufSize ∧
      ((∃ b, s.ibuf.read index = some b ∧ t = s.keepRead (.number b.toNat)) ∨
        (s.ibuf.read index = none ∧
          t = (s.keepRead (.number (Config.drawNumber s.draws % 256))).countDraw true)) := by
  rw [hostReadIbuf]
  split
  · next hle => simp [Nat.not_lt.2 hle]
  · next hgt => cases hr : s.ibuf.read index <;> simp [Nat.not_le.1 hgt, eq_comm]

theorem hostLoad_keeps_inv {bs : List Byte} {s t : State} (h : s.Inv) (ht : hostLoad bs s = .next t) : t.Inv := by
  obtain ⟨hlen, rfl⟩ := hostLoad_eq_next.1 ht
  exact (h.loadIbuf hlen).markWritten _

theorem hostSetIbuf_keeps_inv {index : Nat} {b : Byte} {s t : State} (h : s.Inv)
    (ht : hostSetIbuf index b s = .next t) : t.Inv := by
  obtain ⟨hidx, rfl⟩ := hostSetIbuf_eq_next.1 ht
  exact h.writeIbuf hidx b

theorem hostSet_keeps_inv {r : Reg} {v : HostValue} {s t : State} (h : s.Inv) (ht : hostSet r v s = .next t) :
    t.Inv := by
  unfold hostSet at ht
  split at ht
  · cases ht
  · cases v with
    | number n =>
      obtain ⟨w, -, -, hn, rfl⟩ := hostSetNumber_eq_next.1 ht
      exact (h.storeNumber hn).markWritten [r]
    | bytes bs =>
      obtain ⟨-, hl, rfl⟩ := hostSetBytes_eq_next.1 ht
      exact (h.storeBytes hl).markWritten [r]

theorem hostReadIbuf_keeps_inv {index : Nat} {s t : State} (h : s.Inv) (ht : hostReadIbuf index s = .next t) :
    t.Inv := by
  obtain ⟨-, ⟨b, -, rfl⟩ | ⟨-, rfl⟩⟩ := hostReadIbuf_eq_next.1 ht
  · exact h.keepRead _
  · exact (h.keepRead _).countDraw true

/-- Reset keeps the parameters (10_state.md R39) and empties the rest, which meets every bound. -/
theorem hostReset_keeps_inv {s t : State} (h : s.Inv) (ht : hostReset s = .next t) : t.Inv := by
  cases ht
  exact
    { config := h.config
      memory := State.reset_ibuf_wf
      addresses := nofun
      ilen := Nat.zero_le _
      qname := Nat.zero_le _
      addr := Nat.zero_le _
      rname := Nat.zero_le _
      rdata := Nat.zero_le _
      rbytes := Nat.zero_le _
      status := Nat.zero_le _
      statusWritten := (by decide : Reg.status ∉ Reg.afterReset)
      unwrittenOnce := (by decide : Reg.afterReset.Nodup) }

theorem runMove_keeps_inv {m : HostMove} {s t : State} (h : s.Inv) (ht : runMove m s = .next t) : t.Inv := by
  cases m with
  | load bs => exact hostLoad_keeps_inv h ht
  | setIbuf index b => exact hostSetIbuf_keeps_inv h ht
  | set r v => exact hostSet_keeps_inv h ht
  | command w => exact issue_keeps_inv h ht
  | read r =>
    cases ht
    exact (h.keepRead _).countDraw _
  | readIbuf index => exact hostReadIbuf_keeps_inv h ht
  | emit =>
    cases ht
    exact (h.setHost _).countDraw _
  | reset => exact hostReset_keeps_inv h ht

/-- Settles O13: the step is idle, or makes the host's next move, and every move keeps the invariant. -/
theorem stepKeepsInv : Obligations.StepKeepsInv := by
  intro s t h ht
  cases hm : s.host.moves with
  | nil =>
    rw [step_idle hm] at ht
    cases ht
    exact h
  | cons m rest =>
    rw [step_move hm] at ht
    exact runMove_keeps_inv (h.withMoves rest) ht

end Sys2Proof.Machine
end

section
/-! PROOF. The state (10_state.md): what every command and every move leaves alone, that a command's result comes from its
operands and never from STATUS, the record of an unwritten operand, reset, and the host's writes and reads. -/

namespace Sys2Proof.Machine

/-! Frames of the commands. -/

theorem State.SameBut.mono {rs rs' : List Reg} {s t : State} (h : State.SameBut rs s t) (hsub : rs ⊆ rs') :
    State.SameBut rs' s t :=
  { h with fields := fun r hr => h.fields r fun hm => hr (hsub hm) }

/-- Whether a command succeeds, raises or records a fault, it changes at most STATUS and its writes column. -/
theorem exec_same {i : Instr} {s t : State} (h : exec i s = .next t) :
    State.SameBut (.status :: writeSet i) s t := by
  obtain ⟨-, rfl⟩ | ⟨-, ⟨e, -, rfl⟩ | ⟨u, hu, rfl⟩⟩ := exec_cases h
  · exact s.recordFault_same.mono (List.nil_subset _)
  · exact (s.raise_same e).mono (by simp)
  · exact hu.succeed_same

/-- ILEN, TTL and ADDR are in no writes column (10_state.md R19). -/
theorem hostRegs_not_mem_writeSet (i : Instr) :
    .ilen ∉ writeSet i ∧ .ttl ∉ writeSet i ∧ .addr ∉ writeSet i := by
  cases i <;> simp [writeSet, hdrRegs, hdrFlagRegs, qrecRegs, rrecRegs]

/-- STATUS is in no reads column (10_state.md R32). -/
theorem status_not_mem_readSet (i : Instr) : .status ∉ readSet i := by
  cases i with
  | hdrDec src | qDec src | beGet16 src => cases src <;> simp [readSet, offsetReads]
  | _ => simp [readSet, hdrRegs, hdrFlagRegs, qrecRegs, rrecRegs]

theorem ErrorCode.code_ne_zero (e : ErrorCode) : e.code ≠ 0 := by
  cases e <;> decide

theorem ErrorCode.code_injective {e e' : ErrorCode} (h : e.code = e'.code) : e = e' := by
  revert h
  cases e <;> cases e' <;> decide

/-- Every command answers a next state: there are no faults, and none is refused. -/
theorem exec_answers (i : Instr) (s : State) : ∃ t, exec i s = .next t := by
  cases h : exec i s with
  | next t => exact ⟨t, rfl⟩
  | fault r => cases r
  | refused r => exact absurd h (exec_ne_refused i s r)

/-! The registers as functions of the values of their fields. -/

theorem HostValue.number_toNat_inj {w : Nat} {x y : BitVec w} (h : HostValue.number x.toNat = .number y.toNat) :
    x = y :=
  BitVec.eq_of_toNat_eq (HostValue.number.inj h)

theorem State.flags_eq_of_values {s t : State} (h : ∀ r ∈ hdrFlagRegs, s.value r = t.value r) :
    s.hdr.flags = t.hdr.flags := by
  cases hs : s.hdr.flags
  cases ht : t.hdr.flags
  simpa [hdrFlagRegs, State.value, hs, ht, ← BitVec.toNat_inj] using h

theorem State.hdr_eq_of_values {s t : State} (h : ∀ r ∈ hdrRegs, s.value r = t.value r) : s.hdr = t.hdr := by
  rcases hs : s.hdr with ⟨_, ⟨⟩⟩
  rcases ht : t.hdr with ⟨_, ⟨⟩⟩
  simpa [hdrRegs, hdrFlagRegs, State.value, hs, ht, ← BitVec.toNat_inj, and_assoc] using h

theorem State.qrec_eq_of_values {s t : State} (h : ∀ r ∈ qrecRegs, s.value r = t.value r) : s.qrec = t.qrec := by
  cases hs : s.qrec
  cases ht : t.qrec
  simpa [qrecRegs, State.value, hs, ht, ← BitVec.toNat_inj] using h

theorem State.rrec_eq_of_values {s t : State} (h : ∀ r ∈ rrecRegs, s.value r = t.value r) : s.rrec = t.rrec := by
  cases hs : s.rrec
  cases ht : t.rrec
  simpa [rrecRegs, State.value, hs, ht, ← BitVec.toNat_inj] using h

/-- A state is the values of its register fields and the parts that are no register field. -/
theorem State.eq_of_values {s t : State} (hv : ∀ r, s.value r = t.value r) (hibuf : s.ibuf = t.ibuf)
    (hconfig : s.config = t.config) (hunwritten : s.unwritten = t.unwritten)
    (hfault : s.unwrittenOperand = t.unwrittenOperand) (hdraws : s.draws = t.draws) (hhost : s.host = t.host) :
    s = t := by
  have hhdr := State.hdr_eq_of_values fun r (_ : r ∈ hdrRegs) => hv r
  have hqrec := State.qrec_eq_of_values fun r (_ : r ∈ qrecRegs) => hv r
  have hrrec := State.rrec_eq_of_values fun r (_ : r ∈ rrecRegs) => hv r
  have hilen := HostValue.number_toNat_inj (hv .ilen)
  have hnext := HostValue.number_toNat_inj (hv .next)
  have httl := HostValue.number_toNat_inj (hv .ttl)
  have haddr := HostValue.bytes.inj (hv .addr)
  have hval := HostValue.number_toNat_inj (hv .val)
  have hrbytes := HostValue.bytes.inj (hv .rbytes)
  have hstatus := HostValue.number_toNat_inj (hv .status)
  cases s
  cases t
  simp_all

/-! A command's result comes from its operands (10_state.md R33). -/

/-- Two works of a command agree: the same error, or the same values in the fields `ws`. -/
def SameAnswer (ws : List Reg) : Except ErrorCode State → Except ErrorCode State → Prop
  | .error e₁, .error e₂ => e₂ = e₁
  | .ok u₁, .ok u₂ => ∀ r ∈ ws, u₂.value r = u₁.value r
  | .error _, .ok _ => False
  | .ok _, .error _ => False

/-- Two ends of a command agree: the same STATUS and, on success, the same values in the fields `ws`. -/
def SameResult (ws : List Reg) (t₁ t₂ : State) : Prop :=
  t₂.status = t₁.status ∧ (t₁.status = 0 → ∀ r ∈ ws, t₂.value r = t₁.value r)

/-- Works that write values computed from one decoded result agree. -/
theorem SameAnswer.map {α : Type} {ws : List Reg} {f₁ f₂ : α → State} (a : Except ErrorCode α)
    (h : ∀ x, ∀ r ∈ ws, (f₂ x).value r = (f₁ x).value r) : SameAnswer ws (a.map f₁) (a.map f₂) := by
  cases a with
  | error e => rfl
  | ok x => exact h x

/-- Works that make one check before they write agree. -/
theorem SameAnswer.ite {ws : List Reg} {p : Prop} [Decidable p] {a₁ a₂ b₁ b₂ : Except ErrorCode State}
    (ha : SameAnswer ws a₁ a₂) (hb : SameAnswer ws b₁ b₂) :
    SameAnswer ws (if p then a₁ else b₁) (if p then a₂ else b₂) := by
  split
  · exact ha
  · exact hb

theorem SameAnswer.rbytes {u₁ u₂ : State} (h : u₁.rbytes = u₂.rbytes) : SameAnswer [.rbytes] (.ok u₁) (.ok u₂) := by
  simp [SameAnswer, State.value, h]

theorem State.succeed_value_congr {ws : List Reg} {u₁ u₂ : State} {r : Reg} (h : u₂.value r = u₁.value r) :
    (u₂.succeed ws).value r = (u₁.succeed ws).value r := by
  by_cases hr : r = .status
  · subst hr
    rfl
  · rw [State.succeed_value _ _ _ hr, State.succeed_value _ _ _ hr, h]

theorem SameAnswer.finish {ws : List Reg} {a₁ a₂ : Except ErrorCode State} (h : SameAnswer ws a₁ a₂) {s₁ t₁ : State}
    (ht : s₁.finish ws a₁ = .next t₁) (s₂ : State) : ∃ t₂, s₂.finish ws a₂ = .next t₂ ∧ SameResult ws t₁ t₂ := by
  match a₁, a₂, h with
  | .error e, .error _, rfl =>
    cases ht
    exact ⟨_, rfl, rfl, fun h0 => absurd h0 e.code_ne_zero⟩
  | .ok u₁, .ok u₂, h =>
    cases ht
    exact ⟨_, rfl, rfl, fun _ r hr => State.succeed_value_congr (h r hr)⟩

theorem SameAnswer.runCommand {s₁ s₂ t₁ : State} {rs ws : List Reg} {body : State → Except ErrorCode State}
    (h : SameAnswer ws (body s₁) (body s₂)) (hw₁ : s₁.allWritten rs = true) (hw₂ : s₂.allWritten rs = true)
    (ht : s₁.runCommand rs ws body = .next t₁) :
    ∃ t₂, s₂.runCommand rs ws body = .next t₂ ∧ SameResult ws t₁ t₂ := by
  rw [State.runCommand, State.withOperands_written hw₁] at ht
  rw [State.runCommand, State.withOperands_written hw₂]
  exact h.finish ht s₂

theorem SameAnswer.runOnInput {s₁ s₂ t₁ : State} {rs ws : List Reg} {buf : List Byte}
    {body : State → List Byte → Except ErrorCode State} (h : SameAnswer ws (body s₁ buf) (body s₂ buf))
    (hw₁ : s₁.allWritten rs = true) (hw₂ : s₂.allWritten rs = true) (hb₁ : s₁.inputBytes = some buf)
    (hb₂ : s₂.inputBytes = some buf) (ht : s₁.runOnInput rs ws body = .next t₁) :
    ∃ t₂, s₂.runOnInput rs ws body = .next t₂ ∧ SameResult ws t₁ t₂ := by
  simp only [State.runOnInput, State.withOperands_written hw₁, hb₁] at ht
  simp only [State.runOnInput, State.withOperands_written hw₂, hb₂]
  exact h.finish ht s₂

/-- States that agree on an offset command's register operands have the same offset (30_encoding.md R71). -/
theorem effOff_congr {src : OffsetSource} {s₁ s₂ : State} (imm16 : Half)
    (h : ∀ r ∈ offsetReads src, s₁.value r = s₂.value r) : effOff src imm16 s₁ = effOff src imm16 s₂ := by
  cases src with
  | imm => rfl
  | next => exact HostValue.number.inj (h .next (by simp [offsetReads]))

/-- States that agree on ILEN and on the bytes below it have the same input. -/
theorem State.inputBytes_congr {s₁ s₂ : State} {buf : List Byte} (hilen : s₁.value .ilen = s₂.value .ilen)
    (h : ∀ a, a < s₁.ilen.toNat → s₁.ibuf.read a = s₂.ibuf.read a) (hb : s₁.inputBytes = some buf) :
    s₂.inputBytes = some buf := by
  obtain ⟨hlen, hread⟩ := Memory.readRange_eq_some.1 hb
  have hilen : s₁.ilen.toNat = s₂.ilen.toNat := HostValue.number.inj hilen
  refine Memory.readRange_eq_some.2 ⟨hlen.trans hilen, fun a ha => ?_⟩
  rw [← hread a (by omega), h (0 + a) (by omega)]

/-- What an offset command reads, in two states that agree on its operands: one input, one offset. -/
theorem OperandsWritten.offset_congr {i : Instr} {src : OffsetSource} {s₁ s₂ : State} (ho : OperandsWritten i s₁)
    (hi : i.isOffset = true) (hv : ∀ r ∈ offsetReads src, s₁.value r = s₂.value r)
    (hbytes : i.isOffset = true → ∀ a, a < s₁.ilen.toNat → s₁.ibuf.read a = s₂.ibuf.read a) (imm16 : Half) :
    ∃ buf, s₁.inputBytes = some buf ∧ s₂.inputBytes = some buf ∧ effOff src imm16 s₁ = effOff src imm16 s₂ := by
  obtain ⟨buf, hb⟩ := ho.inputBytes hi
  have hilen : s₁.value .ilen = s₂.value .ilen := hv .ilen (by cases src <;> simp [offsetReads])
  exact ⟨buf, hb, State.inputBytes_congr hilen (hbytes hi) hb, effOff_congr imm16 hv⟩

/-- Two states of one build that agree on a command's operands give the same result (10_state.md R33). -/
theorem exec_sameResult {i : Instr} {s₁ s₂ t₁ : State} (hc : s₁.config = s₂.config) (ho₁ : OperandsWritten i s₁)
    (ho₂ : OperandsWritten i s₂) (hv : ∀ r ∈ readSet i, s₁.value r = s₂.value r)
    (hbytes : i.isOffset = true → ∀ a, a < s₁.ilen.toNat → s₁.ibuf.read a = s₂.ibuf.read a)
    (ht : exec i s₁ = .next t₁) : ∃ t₂, exec i s₂ = .next t₂ ∧ SameResult (writeSet i) t₁ t₂ := by
  have hw₁ := ho₁.allWritten
  have hw₂ := ho₂.allWritten
  cases i with
  | hdrDec src imm16 =>
    simp only [exec, execHdrDec] at ht ⊢
    obtain ⟨buf, hb₁, hb₂, he⟩ := ho₁.offset_congr rfl hv hbytes imm16
    refine SameAnswer.runOnInput ?_ hw₁ hw₂ hb₁ hb₂ ht
    rw [he]
    exact .map _ fun h => by simp [hdrRegs, hdrFlagRegs, State.value]
  | hdrEnc =>
    simp only [exec, execHdrEnc] at ht ⊢
    refine SameAnswer.runCommand ?_ hw₁ hw₂ ht
    rw [State.hdr_eq_of_values hv]
    exact .rbytes rfl
  | flgUnpack =>
    simp only [exec, execFlgUnpack] at ht ⊢
    have hval : s₁.val = s₂.val := HostValue.number_toNat_inj (hv .val (by simp [readSet]))
    refine SameAnswer.runCommand ?_ hw₁ hw₂ ht
    rw [hval]
    simp [SameAnswer, hdrFlagRegs, State.value]
  | flgPack =>
    simp only [exec, execFlgPack] at ht ⊢
    refine SameAnswer.runCommand ?_ hw₁ hw₂ ht
    rw [State.flags_eq_of_values hv]
    simp [SameAnswer, State.value]
  | qDec src imm16 =>
    simp only [exec, execQDec] at ht ⊢
    obtain ⟨buf, hb₁, hb₂, he⟩ := ho₁.offset_congr rfl hv hbytes imm16
    refine SameAnswer.runOnInput ?_ hw₁ hw₂ hb₁ hb₂ ht
    rw [he]
    exact .map _ fun qm => by simp [qrecRegs, State.value]
  | qEnc =>
    simp only [exec, execQEnc] at ht ⊢
    refine SameAnswer.runCommand ?_ hw₁ hw₂ ht
    rw [State.qrec_eq_of_values hv]
    exact .ite (.rbytes rfl) rfl
  | qName =>
    simp only [exec, execQName] at ht ⊢
    have hname : s₁.qrec.qname = s₂.qrec.qname := HostValue.bytes.inj (hv .qname (by simp [readSet]))
    refine SameAnswer.runCommand ?_ hw₁ hw₂ ht
    rw [hname, hc]
    exact .map _ fun _ => SameAnswer.rbytes rfl
  | rrCons =>
    simp only [exec, execRrCons] at ht ⊢
    have httl : s₁.ttl = s₂.ttl := HostValue.number_toNat_inj (hv .ttl (by simp [readSet]))
    have haddr : s₁.addr = s₂.addr := HostValue.bytes.inj (hv .addr (by simp [readSet]))
    refine SameAnswer.runCommand ?_ hw₁ hw₂ ht
    rw [httl, haddr, hc]
    exact .map _ fun r => by simp [rrecRegs, State.value]
  | rrEnc =>
    simp only [exec, execRrEnc] at ht ⊢
    refine SameAnswer.runCommand ?_ hw₁ hw₂ ht
    rw [State.rrec_eq_of_values hv]
    exact .ite (.rbytes rfl) rfl
  | beGet16 src imm16 =>
    simp only [exec, execBeGet16] at ht ⊢
    obtain ⟨buf, hb₁, hb₂, he⟩ := ho₁.offset_congr rfl hv hbytes imm16
    refine SameAnswer.runOnInput ?_ hw₁ hw₂ hb₁ hb₂ ht
    rw [he]
    exact .ite rfl (by simp [SameAnswer, State.value])
  | bePut16 =>
    simp only [exec, execBePut16] at ht ⊢
    have hval : s₁.val = s₂.val := HostValue.number_toNat_inj (hv .val (by simp [readSet]))
    refine SameAnswer.runCommand ?_ hw₁ hw₂ ht
    rw [hval]
    exact .rbytes rfl
  | bePut32 =>
    simp only [exec, execBePut32] at ht ⊢
    have hval : s₁.val = s₂.val := HostValue.number_toNat_inj (hv .val (by simp [readSet]))
    refine SameAnswer.runCommand ?_ hw₁ hw₂ ht
    rw [hval]
    exact .rbytes rfl

/-- Settles O21: command by command, the work is a function of what the two states agree on. -/
theorem resultDependsOnOperandsOnly : Obligations.ResultDependsOnOperandsOnly :=
  fun _ _ _ _ hc ho₁ ho₂ hv hbytes ht => exec_sameResult hc ho₁ ho₂ hv hbytes ht

/-! STATUS is never read (10_state.md R32). -/

/-- A state with another code in STATUS. -/
def State.withStatus (s : State) (c : Byte) : State := { s with status := c }

theorem State.withStatus_value (s : State) (c : Byte) {r : Reg} (h : r ≠ .status) :
    (s.withStatus c).value r = s.value r := by
  cases r
  case status => exact absurd rfl h
  all_goals rfl

theorem State.withStatus_config (s : State) (c : Byte) : (s.withStatus c).config = s.config := rfl

theorem State.withStatus_raise (s : State) (c : Byte) (e : ErrorCode) : (s.withStatus c).raise e = s.raise e := rfl

theorem OperandsWritten.withStatus {i : Instr} {s : State} (h : OperandsWritten i s) (c : Byte) :
    OperandsWritten i (s.withStatus c) :=
  ⟨h.registers, h.input⟩

/-- Results written over two states that differ in STATUS alone, the same values in the same fields, end in one state. -/
theorem OnlyWrites.succeed_eq {ws : List Reg} {s u v : State} {c : Byte} (hu : OnlyWrites ws s u)
    (hv : OnlyWrites ws (s.withStatus c) v)
    (heq : ∀ r ∈ ws, (v.succeed ws).value r = (u.succeed ws).value r) : v.succeed ws = u.succeed ws := by
  refine State.eq_of_values (fun r => ?_) (hv.ibuf.trans hu.ibuf.symm) (hv.config.trans hu.config.symm) ?_
    (hv.fault.trans hu.fault.symm) (hv.draws.trans hu.draws.symm) (hv.host.trans hu.host.symm)
  · by_cases hr : r ∈ ws
    · exact heq r hr
    by_cases hs : r = .status
    · subst hs
      rfl
    · rw [State.succeed_value _ _ _ hs, State.succeed_value _ _ _ hs, hv.fields r hr, hu.fields r hr,
        State.withStatus_value s c hs]
  · rw [State.succeed_unwritten, State.succeed_unwritten, hv.unwritten, hu.unwritten]
    rfl

/-- STATUS is no operand, so it does not reach the results (`exec_sameResult`); and it is not kept, since a command with its
operands written overwrites it. -/
theorem exec_withStatus {i : Instr} {s : State} (ho : OperandsWritten i s) (c : Byte) :
    exec i (s.withStatus c) = exec i s := by
  obtain ⟨t, ht⟩ := exec_answers i s
  have hagree : ∀ r ∈ readSet i, s.value r = (s.withStatus c).value r := fun r hr =>
    (s.withStatus_value c fun hs => status_not_mem_readSet i (hs ▸ hr)).symm
  obtain ⟨t', ht', hstatus, hvalues⟩ :=
    exec_sameResult (s.withStatus_config c).symm ho (ho.withStatus c) hagree (fun _ _ _ => rfl) ht
  rw [ht', ht]
  congr 1
  obtain ⟨e, -, rfl⟩ | ⟨u, hu, rfl⟩ := exec_ends ho ht <;>
    obtain ⟨e', -, rfl⟩ | ⟨u', hu', rfl⟩ := exec_ends (ho.withStatus c) ht'
  · rw [ErrorCode.code_injective hstatus, s.withStatus_raise c]
  · exact absurd hstatus.symm e.code_ne_zero
  · exact absurd hstatus e'.code_ne_zero
  · exact hu.succeed_eq hu' (hvalues rfl)

/-- Settles O19. -/
theorem statusIsNeverRead : Obligations.StatusIsNeverRead := fun _ _ c ho => exec_withStatus ho c

/-! The frame of commands and steps. -/

/-- Settles O16: none of these is in a writes column, and the frame of a command keeps the rest. -/
theorem commandsLeaveInputsAlone : Obligations.CommandsLeaveInputsAlone := by
  intro i s t ht
  have hsame := exec_same ht
  obtain ⟨hilen, httl, haddr⟩ := hostRegs_not_mem_writeSet i
  exact ⟨hsame.memory, HostValue.number_toNat_inj (hsame.fields .ilen (by simp [hilen])),
    HostValue.number_toNat_inj (hsame.fields .ttl (by simp [httl])),
    HostValue.bytes.inj (hsame.fields .addr (by simp [haddr])), hsame.host⟩

/-- `host.set` of a number touches its field alone. -/
theorem State.storeNumber_onlyWrites (s : State) (n : Nat) (r : Reg) : OnlyWrites [r] s (s.storeNumber n r) := by
  refine ⟨fun r' hr => ?_, ?_, ?_, ?_, ?_, ?_, ?_⟩
  · rw [List.mem_singleton] at hr
    cases r <;> cases r' <;> first | rfl | exact absurd rfl hr
  all_goals cases r <;> rfl

/-- `host.set` of bytes touches its field alone. -/
theorem State.storeBytes_onlyWrites (s : State) (bs : List Byte) (r : Reg) : OnlyWrites [r] s (s.storeBytes bs r) := by
  refine ⟨fun r' hr => ?_, ?_, ?_, ?_, ?_, ?_, ?_⟩
  · rw [List.mem_singleton] at hr
    cases r <;> cases r' <;> first | rfl | exact absurd rfl hr
  all_goals cases r <;> rfl

theorem issue_config {w : Word} {s t : State} (ht : issue w s = .next t) : t.config = s.config := by
  cases hd : decode w with
  | ok i =>
    rw [issue_ok hd] at ht
    obtain ⟨u, hu, rfl⟩ := logOutcome_eq_next.1 ht
    exact (exec_same hu).config
  | error c =>
    rw [issue_illegal hd] at ht
    cases ht
    rfl

theorem hostSet_config {r : Reg} {v : HostValue} {s t : State} (ht : hostSet r v s = .next t) :
    t.config = s.config := by
  unfold hostSet at ht
  split at ht
  · cases ht
  · cases v with
    | number n =>
      obtain ⟨w, -, -, -, rfl⟩ := hostSetNumber_eq_next.1 ht
      exact (s.storeNumber_onlyWrites n r).config
    | bytes bs =>
      obtain ⟨-, -, rfl⟩ := hostSetBytes_eq_next.1 ht
      exact (s.storeBytes_onlyWrites bs r).config

theorem runMove_config {m : HostMove} {s t : State} (ht : runMove m s = .next t) : t.config = s.config := by
  cases m with
  | load bs =>
    obtain ⟨-, rfl⟩ := hostLoad_eq_next.1 ht
    rfl
  | setIbuf index b =>
    obtain ⟨-, rfl⟩ := hostSetIbuf_eq_next.1 ht
    rfl
  | set r v => exact hostSet_config ht
  | command w => exact issue_config ht
  | readIbuf index =>
    obtain ⟨-, ⟨b, -, rfl⟩ | ⟨-, rfl⟩⟩ := hostReadIbuf_eq_next.1 ht
    · rfl
    · rfl
  | read r =>
    cases ht
    rfl
  | emit =>
    cases ht
    rfl
  | reset =>
    cases ht
    rfl

/-- Settles O15: the step is idle, or makes the host's next move, and no move changes the parameters. -/
theorem parametersNeverChange : Obligations.ParametersNeverChange := by
  intro s t ht
  cases hm : s.host.moves with
  | nil =>
    rw [step_idle hm] at ht
    cases ht
    rfl
  | cons m rest =>
    rw [step_move hm] at ht
    exact (runMove_config ht).trans (s.withMoves_config rest)

/-! Unwritten operands (10_state.md R37). -/

/-- Settles O22: either kind of unwritten operand ends the command in the record; otherwise it raises or succeeds, and neither
records anything. -/
theorem unwrittenOperandIsRecorded : Obligations.UnwrittenOperandIsRecorded := by
  refine fun i s => ⟨fun hun => ?_, fun ho t ht => ?_⟩
  · have ho : ¬OperandsWritten i s := by
      intro ho
      obtain ⟨r, hr, hun⟩ | ⟨hi, a, ha, hun⟩ := hun
      · exact ho.registers r hr hun
      · exact ho.input hi a ha hun
    exact ⟨_, exec_of_unwritten ho, rfl, s.recordFault_same, rfl⟩
  · obtain ⟨e, -, rfl⟩ | ⟨u, hu, rfl⟩ := exec_ends ho ht
    · rfl
    · exact hu.fault

/-! NEXT after an offset command (44_marshal.md R119). -/

/-- An offset inside the input, stored in NEXT, is at most ILEN. -/
theorem State.ofNat_le_ilen {s : State} {buf : List Byte} {n : Nat} (hb : s.inputBytes = some buf)
    (hn : n ≤ buf.length) : (BitVec.ofNat 16 n).toNat ≤ s.ilen.toNat :=
  (Nat.mod_le n _).trans (hn.trans (State.inputBytes_length hb).le)

/-- A command over the input bytes that succeeds leaves NEXT at most ILEN when its work does. -/
theorem State.runOnInput_next_le {s t : State} {rs ws : List Reg} {buf : List Byte}
    {body : State → List Byte → Except ErrorCode State} (hw : s.allWritten rs = true) (hb : s.inputBytes = some buf)
    (hbody : ∀ u, body s buf = .ok u → u.next.toNat ≤ u.ilen.toNat) (ht : s.runOnInput rs ws body = .next t)
    (h0 : t.status = 0) : t.next.toNat ≤ t.ilen.toNat := by
  obtain ⟨e, -, rfl⟩ | ⟨u, hu, rfl⟩ := (State.runOnInput_eq_next hw hb).1 ht
  · exact absurd h0 e.code_ne_zero
  · exact hbody u hu

/-- Settles O23: each offset command checks that the new NEXT is inside the input before it writes it. -/
theorem nextStaysInsideInput : Obligations.NextStaysInsideInput := by
  intro i s t hi ho ht h0
  have hw := ho.allWritten
  obtain ⟨buf, hb⟩ := ho.inputBytes hi
  cases i with
  | hdrDec src imm16 =>
    simp only [exec, execHdrDec] at ht
    refine State.runOnInput_next_le hw hb (fun u hu => ?_) ht h0
    obtain ⟨h, hd, rfl⟩ := exceptMap_eq_ok.1 hu
    exact State.ofNat_le_ilen hb (headerDecode_ok hd)
  | qDec src imm16 =>
    simp only [exec, execQDec] at ht
    refine State.runOnInput_next_le hw hb (fun u hu => ?_) ht h0
    obtain ⟨⟨q, m⟩, hd, rfl⟩ := exceptMap_eq_ok.1 hu
    obtain ⟨z, -, hz, rfl, -⟩ := questionDecode_eq_ok.1 hd
    exact State.ofNat_le_ilen hb hz
  | beGet16 src imm16 =>
    simp only [exec, execBeGet16] at ht
    refine State.runOnInput_next_le hw hb (fun u hu => ?_) ht h0
    split at hu
    · cases hu
    · next hlen =>
      cases hu
      exact State.ofNat_le_ilen hb (Nat.not_lt.1 hlen)
  | _ => cases hi

/-! The step. -/

/-- Settles O7: the next move is the command, and a command answers a next state. -/
theorem stepRunsDecodedCommand : Obligations.StepRunsDecodedCommand := by
  intro s w i rest hm hd
  obtain ⟨t, ht⟩ := exec_answers i (s.withMoves rest)
  refine ⟨t, ht, ?_⟩
  calc step s = issue w (s.withMoves rest) := step_move hm
    _ = logOutcome (exec i (s.withMoves rest)) := issue_ok hd _
    _ = .next t.logStatus := by rw [ht, logOutcome]

/-- Settles O9: the idle step. -/
theorem idleCoreHolds : Obligations.IdleCoreHolds := fun _ hm => step_idle hm

/-! Reset. -/

/-- What is unwritten after reset is every field but STATUS (10_state.md R39). -/
theorem Reg.mem_afterReset (r : Reg) : r ∈ Reg.afterReset ↔ r ≠ .status := by
  cases r <;> decide

/-- Settles O10. -/
theorem resetLeaves : Obligations.ResetLeaves :=
  ⟨rfl, Reg.mem_afterReset, fun _ => rfl, rfl⟩

/-- Settles O12: the default build meets R11 and R12, and the rest is empty or zero. -/
theorem resetMeetsInv : Obligations.ResetMeetsInv where
  config := by decide
  memory := State.reset_ibuf_wf
  addresses := nofun
  ilen := Nat.zero_le _
  qname := Nat.zero_le _
  addr := Nat.zero_le _
  rname := Nat.zero_le _
  rdata := Nat.zero_le _
  rbytes := Nat.zero_le _
  status := Nat.zero_le _
  statusWritten h := (Reg.mem_afterReset .status).1 h rfl
  unwrittenOnce := (by decide : Reg.afterReset.Nodup)

/-! The host's writes and reads (10_state.md R36, R38, R40). -/

theorem Reg.readOnly_eq_false {r : Reg} : r.readOnly = false ↔ r ≠ .status ∧ r ≠ .rbytes := by
  simp [Reg.readOnly]

theorem hostSet_of_readOnly {r : Reg} (h : r.readOnly = true) (v : HostValue) (s : State) :
    hostSet r v s = .refused .readOnlyRegister := by
  simp [hostSet, h]

theorem hostSet_number {r : Reg} (h : r.readOnly = false) (n : Nat) (s : State) :
    hostSet r (.number n) s = hostSetNumber r n s := by
  simp [hostSet, h]

theorem hostSet_bytes {r : Reg} (h : r.readOnly = false) (bs : List Byte) (s : State) :
    hostSet r (.bytes bs) s = hostSetBytes r bs s := by
  simp [hostSet, h]

/-- A number that fits its field is what the field then holds. -/
theorem State.storeNumber_value {r : Reg} {n w : Nat} (hr : r.readOnly = false) (hw : r.width = some w)
    (hn : n < 2 ^ w) (s : State) : (s.storeNumber n r).value r = .number n := by
  cases r
  case status => cases hr
  all_goals cases hw <;> exact congrArg HostValue.number (Nat.mod_eq_of_lt hn)

/-- Bytes stored in a byte-sequence register are what it then holds. -/
theorem State.storeBytes_value {r : Reg} (hr : r.readOnly = false) (hw : r.width = none) (bs : List Byte) (s : State) :
    (s.storeBytes bs r).value r = .bytes bs := by
  cases r
  case rbytes => cases hr
  all_goals cases hw <;> rfl

/-- What a host write leaves once its field counts as written: the value, and everything else as it was. -/
theorem OnlyWrites.markWritten {r : Reg} {v : HostValue} {s u : State} (h : OnlyWrites [r] s u) (hv : u.value r = v) :
    (u.markWritten [r]).value r = v ∧ (∀ r', r' ≠ r → (u.markWritten [r]).value r' = s.value r') ∧
      (u.markWritten [r]).ibuf = s.ibuf ∧
      ∀ r', r' ∈ (u.markWritten [r]).unwritten ↔ r' ∈ s.unwritten ∧ r' ≠ r := by
  refine ⟨by rw [State.markWritten_value, hv], fun r' hr => ?_, h.ibuf, fun r' => ?_⟩
  · rw [State.markWritten_value, h.fields r' (by simpa using hr)]
  · rw [State.mem_markWritten, h.unwritten, List.mem_singleton]

/-- Settles O50: a value that fits is stored in its field, and each other case is one check of R36. -/
theorem hostSetExactly : Obligations.HostSetExactly := by
  refine fun s r => ⟨fun hr v => hostSet_of_readOnly ?_ v s, fun hs hb => ?_⟩
  · rcases hr with rfl | rfl <;> rfl
  have hro : r.readOnly = false := Reg.readOnly_eq_false.2 ⟨hs, hb⟩
  simp only [runMove, hostSet_number hro, hostSet_bytes hro]
  refine ⟨fun n w hw => ⟨fun hn hi => ?_, fun hn => ?_⟩, ?_, fun bs hw => ⟨fun hl => ?_, fun hl => ?_⟩⟩
  · exact ⟨_, hostSetNumber_eq_next.2 ⟨w, hw, hn, hi, rfl⟩,
      (s.storeNumber_onlyWrites n r).markWritten (State.storeNumber_value hro hw hn s)⟩
  · simp [hostSetNumber, hw, hn]
  · rintro n rfl hn hi
    simp only [hostSetNumber, Reg.width, true_and]
    rw [if_neg (Nat.not_le.2 hn), if_pos hi]
  · exact ⟨_, hostSetBytes_eq_next.2 ⟨hw, hl, rfl⟩,
      (s.storeBytes_onlyWrites bs r).markWritten (State.storeBytes_value hro hw bs s)⟩
  · simp [hostSetBytes, hw, hl]

/-- Settles O51: the host keeps what it sees, which for a written field is its contents. -/
theorem hostReadResult : Obligations.HostReadResult := by
  intro s r
  refine ⟨_, hostSees r s, rfl, rfl, fun hr => if_neg hr, fun r' => ?_, rfl, rfl, rfl⟩
  rw [State.countDraw_value, State.keepRead_value]

end Sys2Proof.Machine
end

section
/-! PROOF. The primitives over bytes (20_memory.md R52 to R55): each as arithmetic, in the terms the results are stated in, and
Put16 as the inverse of putting two bytes together. -/

namespace Sys2Proof.Machine

/-- Two bytes put together, the first as bits 15:8 (20_memory.md R43). -/
theorem toNat_byte_append (b₀ b₁ : Byte) : (b₀ ++ b₁).toNat = b₀.toNat * 256 + b₁.toNat := by
  rw [BitVec.toNat_append, ← Nat.shiftLeft_add_eq_or_of_lt b₁.isLt, Nat.shiftLeft_eq]

/-- BE16 is the big-endian number of its two bytes, also past the end, where both read 0. -/
theorem be16_toNat (buf : List Byte) (a : Nat) : (be16 buf a).toNat = beAt buf a :=
  toNat_byte_append _ _

theorem numbers_put16 (v : Half) : numbers (put16 v) = bytes16 v.toNat := by
  have hv := v.isLt
  simp only [numbers, put16, bytes16, List.map_cons, List.map_nil, BitVec.extractLsb'_toNat, Nat.shiftRight_eq_div_pow,
    List.cons.injEq, and_true]
  omega

theorem numbers_put32 (v : Word) : numbers (put32 v) = bytes32 v.toNat := by
  have hv := v.isLt
  simp only [numbers, put32, bytes32, List.map_cons, List.map_nil, BitVec.extractLsb'_toNat, Nat.shiftRight_eq_div_pow,
    List.cons.injEq, true_and, and_true]
  omega

/-- Settles O25. -/
theorem bigEndianPrimitives : Obligations.BigEndianPrimitives :=
  ⟨fun buf a _ => be16_toNat buf a, numbers_put16, numbers_put32, by decide, by decide⟩

/-- Put16 takes apart what putting two bytes together makes, and nothing else gives those bytes. -/
theorem put16_eq_iff {v : Half} {b₀ b₁ : Byte} : put16 v = [b₀, b₁] ↔ v = b₀ ++ b₁ := by
  simp only [put16, List.cons.injEq, and_true]
  constructor
  · rintro ⟨rfl, rfl⟩
    calc v = v.extractLsb' 0 (8 + 8) := BitVec.extractLsb'_eq_self.symm
      _ = v.extractLsb' 8 8 ++ v.extractLsb' 0 8 := (BitVec.extractLsb'_append_extractLsb'_eq_extractLsb' rfl).symm
  · rintro rfl
    exact ⟨BitVec.extractLsb'_append_eq_left, BitVec.extractLsb'_append_eq_right⟩

theorem put16_injective : Function.Injective put16 := fun _ _ h =>
  (put16_eq_iff.1 h).trans (put16_eq_iff.1 rfl).symm

theorem bytes32_injective : Function.Injective bytes32 := by
  intro m n h
  obtain ⟨h₃, h₂, h₁, h₀⟩ : m / 2 ^ 24 = n / 2 ^ 24 ∧ m / 2 ^ 16 % 256 = n / 2 ^ 16 % 256 ∧
      m / 2 ^ 8 % 256 = n / 2 ^ 8 % 256 ∧ m % 256 = n % 256 := by simpa [bytes32] using h
  omega

theorem put32_injective : Function.Injective put32 := by
  intro v w h
  have hn : bytes32 v.toNat = bytes32 w.toNat := by rw [← numbers_put32, ← numbers_put32, h]
  exact BitVec.eq_of_toNat_eq (bytes32_injective hn)

/-- The two bytes BE16 reads, as a sequence. -/
theorem memRead_two {buf : List Byte} {a : Nat} (h : a + 2 ≤ buf.length) :
    memRead buf a 2 = [inputByte buf a, inputByte buf (a + 1)] := by
  have h₀ : a < buf.length := by omega
  have h₁ : a + 1 < buf.length := by omega
  rw [memRead, List.drop_eq_getElem_cons h₀, List.drop_eq_getElem_cons h₁, inputByte, inputByte,
    List.getD_eq_getElem _ _ h₀, List.getD_eq_getElem _ _ h₁]
  rfl

/-- BE16 composes what Put16 takes apart: the two bytes inside the input are Put16 of BE16, and of no other value. -/
theorem memRead_eq_put16_iff {buf : List Byte} {a : Nat} {v : Half} (h : a + 2 ≤ buf.length) :
    memRead buf a 2 = put16 v ↔ be16 buf a = v := by
  rw [memRead_two h, eq_comm, put16_eq_iff, be16, eq_comm]

theorem put16_ofNat_bytes (b₀ b₁ : Byte) : put16 (BitVec.ofNat 16 (b₀.toNat * 256 + b₁.toNat)) = [b₀, b₁] := by
  rw [put16_eq_iff, ← toNat_byte_append]
  exact BitVec.ofNat_toNat 16 _

/-- Settles O26. -/
theorem marshallerLaws : Obligations.MarshallerLaws :=
  ⟨fun _ _ _ ha => (memRead_eq_put16_iff ha).1, put16_ofNat_bytes, fun _ _ h => put16_injective h,
    fun _ _ h => put32_injective h⟩

end Sys2Proof.Machine
end

section
/-! PROOF. Words and bytes put together of fields by shifts and ORs, as sums: the formula of a command word (30_encoding.md
R84; O1) and the flag bytes (R75, R76; O27). -/

namespace Sys2Proof.Machine

/-- A field shifted inside the word loses no bit. -/
theorem toNat_setWidth_shiftLeft {v w i : Nat} (x : BitVec v) (h : v + i ≤ w) :
    (x.setWidth w <<< i).toNat = x.toNat <<< i := by
  have hx : x.toNat <<< i < 2 ^ w := (Nat.shiftLeft_lt x.isLt).trans_le (Nat.pow_le_pow_right Nat.two_pos h)
  rw [BitVec.toNat_shiftLeft, BitVec.toNat_setWidth_of_le (by omega), Nat.mod_eq_of_lt hx]

/-- An OR with bits below the shifted ones is a sum. -/
theorem shiftLeft_or_eq_add {a b i : Nat} (h : b < 2 ^ i) : a <<< i ||| b = a * 2 ^ i + b := by
  rw [← Nat.shiftLeft_add_eq_or_of_lt h, Nat.shiftLeft_eq]

/-- The word of a command as a number (R84). -/
theorem encode_toNat (i : Instr) :
    (encode i).toNat = i.opc.toNat * 2 ^ 24 + i.sBit.toNat * 2 ^ 16 + i.imm16.toNat := by
  have hs := i.sBit.isLt
  have himm := i.imm16.isLt
  rw [encode, BitVec.toNat_or, BitVec.toNat_or, toNat_setWidth_shiftLeft _ (by decide),
    toNat_setWidth_shiftLeft _ (by decide), BitVec.toNat_setWidth_of_le (by decide), Nat.or_assoc,
    shiftLeft_or_eq_add (b := i.imm16.toNat) himm, shiftLeft_or_eq_add (by omega), Nat.add_assoc]

/-- Settles O1. -/
theorem commandWordFormula : Obligations.CommandWordFormula :=
  ⟨encode_toNat, by decide, by decide, by decide, by decide, by decide⟩

/-! The flag bytes (R75, R76): their fields lie side by side, so their OR is their sum. -/

theorem flagByteA_toNat (f : HeaderFlags) : (flagByteA f).toNat = numberA f := by
  have hopcode := f.opcode.isLt
  have haa := f.aa.isLt
  have htc := f.tc.isLt
  have hrd := f.rd.isLt
  simp (disch := decide) only [flagByteA, numberA, BitVec.toNat_or, toNat_setWidth_shiftLeft,
    BitVec.toNat_setWidth_of_le, Nat.or_assoc]
  rw [shiftLeft_or_eq_add (b := f.rd.toNat) hrd, shiftLeft_or_eq_add (i := 2) (by omega),
    shiftLeft_or_eq_add (i := 3) (by omega), shiftLeft_or_eq_add (i := 7) (by omega)]
  omega

theorem flagByteB_toNat (f : HeaderFlags) : (flagByteB f).toNat = numberB f := by
  have hz := f.z.isLt
  have hrcode := f.rcode.isLt
  simp (disch := decide) only [flagByteB, numberB, BitVec.toNat_or, toNat_setWidth_shiftLeft,
    BitVec.toNat_setWidth_of_le, Nat.or_assoc]
  rw [shiftLeft_or_eq_add (b := f.rcode.toNat) hrcode, shiftLeft_or_eq_add (i := 7) (by omega)]
  omega

/-- Settles O27. -/
theorem flagByteLayout : Obligations.FlagByteLayout := fun f => ⟨flagByteA_toNat f, flagByteB_toNat f⟩

end Sys2Proof.Machine
end

section
/-! PROOF. The decoder (30_encoding.md Part A): the fields of a word, the rows of the opcode map, that the decoder inverts the
encoder (O2, O3), refuses by the clauses of R72 (O4) and reads sample words (O5); and the assembler's lines (R82, R83; O6). -/

namespace Sys2Proof.Machine

/-! The fields of a word (R64). -/

theorem opcField_toNat (w : Word) : (opcField w).toNat = wordOpc w := by
  have hw := w.isLt
  rw [opcField, wordOpc, BitVec.extractLsb'_toNat, Nat.shiftRight_eq_div_pow]
  omega

theorem resField_toNat (w : Word) : (resField w).toNat = wordRes w := by
  rw [resField, wordRes, BitVec.extractLsb'_toNat, Nat.shiftRight_eq_div_pow]

theorem sField_toNat (w : Word) : (sField w).toNat = wordS w := by
  rw [sField, wordS, BitVec.extractLsb'_toNat, Nat.shiftRight_eq_div_pow, Nat.pow_one]

theorem imm16Field_toNat (w : Word) : (imm16Field w).toNat = wordImm16 w := by
  rw [imm16Field, wordImm16, BitVec.extractLsb'_toNat, Nat.shiftRight_zero]

/-- The four fields cover the word (R64). -/
theorem word_eq_of_fields {v w : Word} (hopc : opcField v = opcField w) (hres : resField v = resField w)
    (hs : sField v = sField w) (himm : imm16Field v = imm16Field w) : v = w := by
  simp only [BitVec.toNat_eq, opcField_toNat, resField_toNat, sField_toNat, imm16Field_toNat, wordOpc, wordRes, wordS,
    wordImm16] at hopc hres hs himm
  apply BitVec.eq_of_toNat_eq
  omega

/-- The fields of the word of any command. -/
theorem encode_fields : ∀ i : Instr, Laws.EncodeFields.Statement i
  | .hdrDec src imm16 => Laws.EncodeFields.hdrDec src imm16
  | .hdrEnc => Laws.EncodeFields.hdrEnc
  | .flgUnpack => Laws.EncodeFields.flgUnpack
  | .flgPack => Laws.EncodeFields.flgPack
  | .qDec src imm16 => Laws.EncodeFields.qDec src imm16
  | .qEnc => Laws.EncodeFields.qEnc
  | .qName => Laws.EncodeFields.qName
  | .rrCons => Laws.EncodeFields.rrCons
  | .rrEnc => Laws.EncodeFields.rrEnc
  | .beGet16 src imm16 => Laws.EncodeFields.beGet16 src imm16
  | .bePut16 => Laws.EncodeFields.bePut16
  | .bePut32 => Laws.EncodeFields.bePut32

/-! The operand part of a row. -/

theorem bit_eq_one_of_ne_zero {s : BitVec 1} (h : s ≠ 0) : s = 1 := by
  bv_omega

theorem decodeOffset_of_wellFormed (make : OffsetSource → Half → Instr) {src : OffsetSource} {imm16 : Half}
    (h : offsetWellFormed src imm16 = true) : decodeOffset make src.bit imm16 = .ok (make src imm16) := by
  cases src with
  | imm => rfl
  | next =>
    obtain rfl : imm16 = 0 := eq_of_beq h
    rfl

theorem decodeOffset_eq_ok {make : OffsetSource → Half → Instr} {s : BitVec 1} {imm16 : Half} {i : Instr}
    (h : decodeOffset make s imm16 = .ok i) :
    ∃ src, i = make src imm16 ∧ src.bit = s ∧ offsetWellFormed src imm16 = true := by
  unfold decodeOffset at h
  split at h
  · next hs =>
    cases h
    exact ⟨.imm, rfl, hs.symm, rfl⟩
  · next hs =>
    split at h
    · next himm =>
      cases h
      subst himm
      exact ⟨.next, rfl, (bit_eq_one_of_ne_zero hs).symm, rfl⟩
    · cases h

theorem decodePlain_eq_ok {j i : Instr} {s : BitVec 1} {imm16 : Half} :
    decodePlain j s imm16 = .ok i ↔ i = j ∧ s = 0 ∧ imm16 = 0 := by
  unfold decodePlain
  split
  · next h => simp [h, eq_comm]
  · next h => exact ⟨nofun, fun hi => absurd hi.2 h⟩

/-- Clause 4 of R72. -/
theorem decodeOffset_refuses {make : OffsetSource → Half → Instr} {s : BitVec 1} {imm16 : Half} :
    (∃ c, decodeOffset make s imm16 = .error c) ↔ s = 1 ∧ imm16 ≠ 0 := by
  unfold decodeOffset
  split
  · next hs => simp [hs]
  · next hs =>
    split
    · next himm => simp [himm]
    · next himm => exact ⟨fun _ => ⟨bit_eq_one_of_ne_zero hs, himm⟩, fun _ => ⟨_, rfl⟩⟩

/-- Clause 3 of R72. -/
theorem decodePlain_refuses {j : Instr} {s : BitVec 1} {imm16 : Half} :
    (∃ c, decodePlain j s imm16 = .error c) ↔ s ≠ 0 ∨ imm16 ≠ 0 := by
  unfold decodePlain
  split
  · next h => simp [h]
  · next h => exact ⟨fun _ => not_and_or.1 h, fun _ => ⟨_, rfl⟩⟩

theorem wellFormed_of_not_offset {i : Instr} (h : i.isOffset = false) : i.wellFormed = true := by
  cases i with
  | hdrDec | qDec | beGet16 => cases h
  | _ => rfl

/-! The opcode map (R70). -/

/-- What the opcode map has for an OPC value: no command, one of the three offset commands, or one of the nine others. -/
inductive OpcodeRow (opc : Byte) : Option (BitVec 1 → Half → Except IllegalWord Instr) → Prop where
  | unmapped (h : opc.toNat ∉ mappedOpcodes) : OpcodeRow opc none
  | offset (make : OffsetSource → Half → Instr) (h : opc.toNat ∈ offsetOpcodes)
      (hopc : ∀ src imm16, (make src imm16).opc = opc) (hs : ∀ src imm16, (make src imm16).sBit = src.bit)
      (himm : ∀ src imm16, (make src imm16).imm16 = imm16)
      (hwf : ∀ src imm16, (make src imm16).wellFormed = offsetWellFormed src imm16) :
      OpcodeRow opc (some (decodeOffset make))
  | plain (j : Instr) (h : opc.toNat ∈ mappedOpcodes) (h' : opc.toNat ∉ offsetOpcodes) (hopc : j.opc = opc)
      (hj : j.isOffset = false) : OpcodeRow opc (some (decodePlain j))

theorem opcodeRow_row (opc : Byte) : OpcodeRow opc (opcodeRow opc) := by
  unfold opcodeRow
  split
  case h_13 => exact .unmapped (by simp_all [mappedOpcodes])
  case h_1 h | h_5 h | h_10 h =>
    exact .offset _ (by rw [h]; decide) (fun _ _ => BitVec.eq_of_toNat_eq h.symm) (fun _ _ => rfl) (fun _ _ => rfl)
      fun _ _ => rfl
  all_goals
    next h => exact .plain _ (by rw [h]; decide) (by rw [h]; decide) (BitVec.eq_of_toNat_eq h.symm) rfl

/-! The decoder. -/

theorem decode_unmapped {w : Word} (h : opcodeRow (opcField w) = none) : decode w = .error .unknownOpcode := by
  simp [decode, h]

theorem decode_reserved {w : Word} {row : BitVec 1 → Half → Except IllegalWord Instr}
    (h : opcodeRow (opcField w) = some row) (hres : resField w ≠ 0) : decode w = .error .reservedNonzero := by
  simp only [decode, h, if_neg hres]

theorem decode_row {w : Word} {row : BitVec 1 → Half → Except IllegalWord Instr}
    (h : opcodeRow (opcField w) = some row) (hres : resField w = 0) : decode w = row (sField w) (imm16Field w) := by
  simp only [decode, h, if_pos hres]

/-- A word that decodes has a row, RES = 0, and the row's operand part decodes. -/
theorem decode_eq_ok {w : Word} {i : Instr} (h : decode w = .ok i) :
    resField w = 0 ∧ ∃ row, opcodeRow (opcField w) = some row ∧ row (sField w) (imm16Field w) = .ok i := by
  cases hrow : opcodeRow (opcField w) with
  | none => simp [decode_unmapped hrow] at h
  | some row =>
    by_cases hres : resField w = 0
    · exact ⟨hres, row, rfl, decode_row hrow hres ▸ h⟩
    · simp [decode_reserved hrow hres] at h

/-- The decoder on the word of a command: the operand part of its row, on its S and IMM16. -/
theorem decode_encode_row {i : Instr} {row : BitVec 1 → Half → Except IllegalWord Instr}
    (h : opcodeRow i.opc = some row) : decode (encode i) = row i.sBit i.imm16 := by
  obtain ⟨hopc, hres, hs, himm, -⟩ := encode_fields i
  rw [decode_row (by rw [hopc, h]) hres, hs, himm]

/-- Settles O2: the word of a command leads to its row, which gives its operands back. -/
theorem decodeEncodeAgree : Obligations.DecodeEncodeAgree := by
  intro i hwf
  cases i with
  | hdrDec src imm16 => exact (decode_encode_row rfl).trans (decodeOffset_of_wellFormed .hdrDec hwf)
  | qDec src imm16 => exact (decode_encode_row rfl).trans (decodeOffset_of_wellFormed .qDec hwf)
  | beGet16 src imm16 => exact (decode_encode_row rfl).trans (decodeOffset_of_wellFormed .beGet16 hwf)
  | _ => exact decode_encode_row (row := decodePlain _) rfl

/-- What a row says of the command it decodes to. -/
theorem OpcodeRow.fields {opc : Byte} {row : BitVec 1 → Half → Except IllegalWord Instr} {s : BitVec 1} {imm16 : Half}
    {i : Instr} (hrow : OpcodeRow opc (some row)) (h : row s imm16 = .ok i) :
    i.wellFormed = true ∧ i.opc = opc ∧ i.sBit = s ∧ i.imm16 = imm16 := by
  cases hrow with
  | offset make _ hopc hs himm hwf =>
    obtain ⟨src, rfl, rfl, hok⟩ := decodeOffset_eq_ok h
    exact ⟨(hwf ..).trans hok, hopc .., hs .., himm ..⟩
  | plain j _ _ hopc hj =>
    obtain ⟨rfl, rfl, rfl⟩ := decodePlain_eq_ok.1 h
    obtain ⟨-, -, -, -, hzero⟩ := encode_fields i
    exact ⟨wellFormed_of_not_offset hj, hopc, hzero hj⟩

/-- Settles O3: the command has the fields of the word, so its word is that word. -/
theorem legalWordIsTheEncoding : Obligations.LegalWordIsTheEncoding := by
  intro w i h
  obtain ⟨hres, row, hrow, hok⟩ := decode_eq_ok h
  obtain ⟨hwf, hopc, hs, himm⟩ := (hrow ▸ opcodeRow_row (opcField w)).fields hok
  obtain ⟨hopc', hres', hs', himm', -⟩ := encode_fields i
  exact ⟨hwf, word_eq_of_fields (hopc'.trans hopc) (hres'.trans hres.symm) (hs'.trans hs) (himm'.trans himm)⟩

/-! Illegal words (R72). -/

/-- The clauses of R72 over the fields as the decoder takes them. -/
theorem illegalByClauses_iff {w : Word} : IllegalByClauses w ↔
    (opcField w).toNat ∉ mappedOpcodes ∨ resField w ≠ 0 ∨
      ((opcField w).toNat ∉ offsetOpcodes ∧ (sField w ≠ 0 ∨ imm16Field w ≠ 0)) ∨
      ((opcField w).toNat ∈ offsetOpcodes ∧ sField w = 1 ∧ imm16Field w ≠ 0) := by
  simp only [IllegalByClauses, ← opcField_toNat, ← resField_toNat, ← sField_toNat, ← imm16Field_toNat, ne_eq,
    BitVec.toNat_eq]
  rfl

theorem offsetOpcodes_subset : offsetOpcodes ⊆ mappedOpcodes := by decide

/-- The decoder refuses by the first clause that holds, and only then. -/
theorem decode_refuses_iff {w : Word} : (∃ c, decode w = .error c) ↔ IllegalByClauses w := by
  rw [illegalByClauses_iff]
  have hkind := opcodeRow_row (opcField w)
  cases hrow : opcodeRow (opcField w) with
  | none =>
    rw [hrow] at hkind
    obtain ⟨h⟩ := hkind
    exact ⟨fun _ => .inl h, fun _ => ⟨_, decode_unmapped hrow⟩⟩
  | some row =>
    by_cases hres : resField w = 0
    · rw [decode_row hrow hres]
      rw [hrow] at hkind
      cases hkind with
      | offset make h =>
        rw [decodeOffset_refuses]
        simp [h, offsetOpcodes_subset h, hres]
      | plain j h h' =>
        rw [decodePlain_refuses]
        simp [h, h', hres]
    · exact ⟨fun _ => .inr (.inl hres), fun _ => ⟨_, decode_reserved hrow hres⟩⟩

/-- Settles O4. -/
theorem illegalWordsRaise : Obligations.IllegalWordsRaise := by
  refine fun w => ⟨decode_refuses_iff, fun hill s => ?_⟩
  obtain ⟨c, hc⟩ := decode_refuses_iff.2 hill
  refine ⟨_, issue_illegal hc s, rfl, fun r hr => ?_, fun _ => rfl, rfl, rfl, rfl⟩
  rw [State.logStatus_value, State.raise_value _ _ _ hr]

/-- Settles O5: each word bit by bit. -/
theorem sampleWordsDecode : Obligations.SampleWordsDecode := by
  unfold Obligations.SampleWordsDecode
  decide

/-! The assembler (R82, R83). -/

theorem assembleOffset_number (make : OffsetSource → Half → Instr) (n : Half) :
    assembleOffset make (.number n.toNat) = some (make .imm n) := by
  rw [assembleOffset, if_pos (Nat.le_of_lt_succ n.isLt), BitVec.ofNat_toNat, BitVec.setWidth_eq]

theorem assembleOffset_tooLarge (make : OffsetSource → Half → Instr) {n : Nat} (h : 65535 < n) :
    assembleOffset make (.number n) = none :=
  if_neg (Nat.not_le.2 h)

theorem assemble_hdrDec : assemble "hdr.dec" = assembleOffset .hdrDec := rfl
theorem assemble_qDec : assemble "q.dec" = assembleOffset .qDec := rfl
theorem assemble_beGet16 : assemble "be.get16" = assembleOffset .beGet16 := rfl

/-- Settles O6: the offset commands for every number, every other line by running the assembler. -/
theorem assemblerLines : Obligations.AssemblerLines := by
  refine ⟨fun n => ?_, fun n hn => ?_, ?_⟩
  · rw [assemble_hdrDec, assemble_qDec, assemble_beGet16]
    exact ⟨assembleOffset_number .., assembleOffset_number .., assembleOffset_number ..⟩
  · rw [assemble_hdrDec, assemble_qDec, assemble_beGet16]
    exact ⟨assembleOffset_tooLarge _ hn, assembleOffset_tooLarge _ hn, assembleOffset_tooLarge _ hn⟩
  · decide

end Sys2Proof.Machine
end

section
/-! PROOF. The host's side of the encoding: the effective offset (O24), `host.load` (O49) and `host.emit` (O52). -/

namespace Sys2Proof.Machine

/-- Settles O24. -/
theorem effectiveOffset : Obligations.EffectiveOffset :=
  fun imm16 s => ⟨rfl, rfl, fun src => effOff_lt src imm16 s⟩

/-- Bytes loaded from index 0 are read back as one range, whatever was there (10_state.md R34). -/
theorem Memory.readRange_load (m : Memory) (bs : List Byte) : (m.load 0 bs).readRange 0 bs.length = some bs := by
  refine Memory.readRange_eq_some.2 ⟨rfl, fun i hi => ?_⟩
  rw [Memory.read_load, if_pos (by omega)]
  simp

theorem Memory.read_load_above (m : Memory) {bs : List Byte} {a : Nat} (h : bs.length ≤ a) :
    (m.load 0 bs).read a = m.read a := by
  rw [Memory.read_load, if_neg (by omega)]

theorem hostLoad_of_tooLong {bs : List Byte} {s : State} (h : s.config.ibufSize < bs.length) :
    hostLoad bs s = .refused .ilenAboveIbufSize :=
  if_pos h

/-- Settles O49: legal parameters bound IBUF_SIZE, so that ILEN holds the count. -/
theorem hostLoadResult : Obligations.HostLoadResult := by
  refine fun s bs hwf => ⟨fun hlen => ?_, hostLoad_of_tooLong⟩
  obtain ⟨-, hsize, -⟩ := Config.wf_iff.1 hwf
  have hilen : (BitVec.ofNat 16 bs.length).toNat = bs.length := Nat.mod_eq_of_lt (by omega)
  refine ⟨_, hostLoad_eq_next.2 ⟨hlen, rfl⟩, hilen, ?_, fun a ha => Memory.read_load_above _ ha, fun r hr => ?_,
    fun r => ?_⟩
  · rw [State.inputBytes, State.markWritten_ilen, State.markWritten_ibuf, hilen]
    exact Memory.readRange_load _ _
  · rw [State.markWritten_value]
    cases r
    case ilen => exact absurd rfl hr
    all_goals rfl
  · rw [State.mem_markWritten, List.mem_singleton]

/-- A written field is seen as it is (10_state.md R40). -/
theorem hostSees_of_written {r : Reg} {s : State} (h : r ∉ s.unwritten) : hostSees r s = s.value r :=
  if_neg h

/-- Settles O52: a written RBYTES is what the host sees of it. -/
theorem hostEmitResult : Obligations.HostEmitResult := by
  refine fun s hs => ⟨_, rfl, ?_, fun r => ?_, rfl, rfl, rfl⟩
  · simp only [State.countDraw_host, hostSees_of_written hs, State.value_rbytes, HostValue.toBytes]
  · rw [State.countDraw_value]
    cases r <;> rfl

end Sys2Proof.Machine
end

section
/-! PROOF. The header codec (41_header.md): the flag bytes and the flags word as each other's inverse, the header as the twelve
bytes it is made of (R90; O33), and the four commands (O29 to O32). -/

namespace Sys2Proof.Machine

/-! The flags word (30_encoding.md R77): taking it apart and putting it together are inverse, in arithmetic. -/

/-- A mask of `w` bits from bit `shift` up selects those bits. -/
theorem maskedField_toNat {w shift : Nat} {mask : Byte} (hmask : mask.toNat >>> shift = 2 ^ w - 1) (b : Byte) :
    (maskedField w b mask shift).toNat = b.toNat / 2 ^ shift % 2 ^ w := by
  rw [maskedField, BitVec.toNat_setWidth, BitVec.toNat_ushiftRight, BitVec.toNat_and, Nat.shiftRight_and_distrib, hmask,
    Nat.and_two_pow_sub_one_eq_mod, Nat.mod_mod, Nat.shiftRight_eq_div_pow]

/-- FlagUnpack (R88) takes the flags word of bytes A and B apart. -/
theorem flagUnpack_flagsOfWord (a b : Byte) : FlagsOfWord (a.toNat * 256 + b.toNat) (flagUnpack a b) := by
  have hb := b.isLt
  constructor <;> rw [flagUnpack, maskedField_toNat (by decide)] <;> omega

/-- The flag bytes (R75, R76), put together as numbers, are the flags word of their fields. -/
theorem flagsOfWord_numbers (f : HeaderFlags) : FlagsOfWord (numberA f * 256 + numberB f) f := by
  have hqr := f.qr.isLt
  have hopcode := f.opcode.isLt
  have haa := f.aa.isLt
  have htc := f.tc.isLt
  have hrd := f.rd.isLt
  have hra := f.ra.isLt
  have hz := f.z.isLt
  have hrcode := f.rcode.isLt
  constructor <;> simp only [numberA, numberB] <;> omega

/-- The eight fields cover the flags word. -/
theorem FlagsOfWord.word_eq {word : Nat} {f : HeaderFlags} (h : FlagsOfWord word f) (hw : word < 2 ^ 16) :
    word = numberA f * 256 + numberB f := by
  obtain ⟨hqr, hopcode, haa, htc, hrd, hra, hz, hrcode⟩ := h
  simp only [numberA, numberB]
  omega

theorem FlagsOfWord.unique {word : Nat} {f g : HeaderFlags} (hf : FlagsOfWord word f) (hg : FlagsOfWord word g) :
    f = g := by
  cases hf
  cases hg
  cases f
  cases g
  simp_all [BitVec.toNat_eq]

/-- FlagPack inverts FlagUnpack (R90). -/
theorem flagBytes_flagUnpack (a b : Byte) : flagByteA (flagUnpack a b) = a ∧ flagByteB (flagUnpack a b) = b := by
  have ha := a.isLt
  have hb := b.isLt
  have hB := (flagByteB (flagUnpack a b)).isLt
  have hword := (flagUnpack_flagsOfWord a b).word_eq (by omega)
  rw [← flagByteA_toNat, ← flagByteB_toNat] at hword
  constructor <;> apply BitVec.eq_of_toNat_eq <;> omega

/-- FlagUnpack inverts FlagPack (R90). -/
theorem flagUnpack_flagBytes (f : HeaderFlags) : flagUnpack (flagByteA f) (flagByteB f) = f := by
  have h := flagUnpack_flagsOfWord (flagByteA f) (flagByteB f)
  rw [flagByteA_toNat, flagByteB_toNat] at h
  exact h.unique (flagsOfWord_numbers f)

/-! The header laws (R90). -/

/-- The two bytes that Put16 takes apart, put together. -/
theorem half_bytes_append (v : Half) : v.extractLsb' 8 8 ++ v.extractLsb' 0 8 = v :=
  (put16_eq_iff.1 rfl).symm

/-- Decoding inverts encoding, whatever follows the twelve bytes. -/
theorem headerDecode_headerEncode (h : Header) (rest : List Byte) : headerDecode (headerEncode h ++ rest) 0 = .ok h := by
  rw [headerDecode_of_inside (by simp)]
  calc Except.ok _
      = .ok
        { id := h.id.extractLsb' 8 8 ++ h.id.extractLsb' 0 8
          flags := flagUnpack (flagByteA h.flags) (flagByteB h.flags)
          qdcount := h.qdcount.extractLsb' 8 8 ++ h.qdcount.extractLsb' 0 8
          ancount := h.ancount.extractLsb' 8 8 ++ h.ancount.extractLsb' 0 8
          nscount := h.nscount.extractLsb' 8 8 ++ h.nscount.extractLsb' 0 8
          arcount := h.arcount.extractLsb' 8 8 ++ h.arcount.extractLsb' 0 8 } := rfl
    _ = .ok h := by simp only [half_bytes_append, flagUnpack_flagBytes]

/-- A read of consecutive ranges is one read after the other. -/
theorem memRead_add (buf : List Byte) (a m n : Nat) :
    memRead buf a (m + n) = memRead buf a m ++ memRead buf (a + m) n := by
  rw [memRead, List.take_add, List.drop_drop]
  rfl

theorem put16_be16 {buf : List Byte} {a : Nat} (h : a + 2 ≤ buf.length) : put16 (be16 buf a) = memRead buf a 2 :=
  ((memRead_eq_put16_iff h).2 rfl).symm

/-- Encoding a decoded header gives its bytes: six reads of two bytes, which together are the read of twelve. -/
theorem headerEncode_of_decode {buf : List Byte} {o : Nat} {h : Header} (hd : headerDecode buf o = .ok h) :
    headerEncode h = memRead buf o 12 := by
  have hlen := headerDecode_ok hd
  rw [headerDecode_of_inside hlen] at hd
  cases hd
  obtain ⟨hA, hB⟩ := flagBytes_flagUnpack (inputByte buf (o + 2)) (inputByte buf (o + 3))
  rw [headerEncode, hA, hB, ← memRead_two (by omega), put16_be16 (by omega), put16_be16 (by omega),
    put16_be16 (by omega), put16_be16 (by omega), put16_be16 (by omega)]
  simp only [← memRead_add]

/-- Settles O33: a decode that succeeds is inside the input, so the converse needs no bound of its own. -/
theorem headerLaws : Obligations.HeaderLaws :=
  ⟨headerDecode_headerEncode, fun _ _ _ _ hd => headerEncode_of_decode hd, flagBytes_flagUnpack, flagUnpack_flagBytes⟩

/-! The commands: what each writes is its codec function's answer, in the terms of the laws above. -/

/-- HDR_DEC where HeaderDecode answers a header. -/
theorem exec_hdrDec_of_decode {src : OffsetSource} {imm16 : Half} {s : State} {buf : List Byte} {h : Header}
    (hw : s.allWritten (offsetReads src) = true) (hb : s.inputBytes = some buf)
    (hd : headerDecode buf (effOff src imm16 s) = .ok h) :
    exec (.hdrDec src imm16) s = .next (({ s with
      hdr := h, next := BitVec.ofNat 16 (effOff src imm16 s + 12) } : State).succeed (hdrRegs ++ [.next])) := by
  rw [exec_hdrDec_eq hw hb, hd]

/-- Settles O29: NEXT does not wrap, because the offset after the header is at most ILEN. -/
theorem hdrDecResult : Obligations.HdrDecResult := by
  intro src imm16 s buf hb hw hlen
  have hin : effOff src imm16 s + 12 ≤ buf.length := by rwa [State.inputBytes_length hb]
  have hnext : (BitVec.ofNat 16 (effOff src imm16 s + 12)).toNat = effOff src imm16 s + 12 :=
    Nat.mod_eq_of_lt (hlen.trans_lt s.ilen.isLt)
  exact ⟨_, exec_hdrDec_of_decode hw hb (headerDecode_of_inside hin), (OnlyWrites.hdr ..).succeeded, be16_toNat ..,
    flagUnpack_flagsOfWord .., be16_toNat .., be16_toNat .., be16_toNat .., be16_toNat .., hnext⟩

theorem numbers_append (bs cs : List Byte) : numbers (bs ++ cs) = numbers bs ++ numbers cs := List.map_append

/-- Settles O30. -/
theorem hdrEncResult : Obligations.HdrEncResult := by
  refine fun s hw => ⟨_, exec_hdrEnc_eq hw, (OnlyWrites.rbytes ..).succeeded, ?_⟩
  have hflags : numbers [flagByteA s.hdr.flags, flagByteB s.hdr.flags] = [numberA s.hdr.flags, numberB s.hdr.flags] := by
    rw [← flagByteA_toNat, ← flagByteB_toNat]
    rfl
  simp only [State.succeed_rbytes, headerEncode, numbers_append, numbers_put16, hflags]

/-- VAL[15:8] and VAL[7:0] are the two bytes of VAL modulo 2^16. -/
theorem toNat_low_bytes (v : Word) :
    (v.extractLsb' 8 8).toNat * 256 + (v.extractLsb' 0 8).toNat = v.toNat % 2 ^ 16 := by
  simp only [BitVec.extractLsb'_toNat, Nat.shiftRight_eq_div_pow]
  omega

/-- Settles O31. -/
theorem flgUnpackResult : Obligations.FlgUnpackResult := by
  refine fun s hw => ⟨_, exec_flgUnpack_eq hw, (OnlyWrites.flags ..).succeeded, ?_⟩
  rw [← toNat_low_bytes]
  exact flagUnpack_flagsOfWord ..

/-- Settles O32. -/
theorem flgPackResult : Obligations.FlgPackResult := by
  refine fun s hw => ⟨_, exec_flgPack_eq hw, (OnlyWrites.val ..).succeeded, ?_⟩
  rw [State.succeed_val, BitVec.toNat_setWidth_of_le (by decide), toNat_byte_append, flagByteA_toNat, flagByteB_toNat]

end Sys2Proof.Machine
end

section
/-! PROOF. The round trips of 41_header.md R90 and 42_question.md R101 on the machine (O53): a question encoded anywhere in a
buffer decodes there, and `host.load` makes RBYTES the input of the next decode. -/

namespace Sys2Proof.Machine

/-! ValidName (42_question.md R99) and the question round trip (R101). -/

theorem validName_iff {n : List Byte} : validName n = true ↔ ValidName n := by
  induction n with
  | nil => simp [validName, ValidName]
  | cons b bs ih =>
    cases bs with
    | nil => simp [validName, ValidName]
    | cons c bs =>
      rw [validName, Bool.and_eq_true, ih]
      simp only [ValidName, List.length_cons, Nat.add_sub_cancel, Nat.forall_lt_succ_left, List.getElem?_cons_succ,
        List.getElem?_cons_zero]
      simp [and_left_comm]

theorem memRead_append (before bs after : List Byte) : memRead (before ++ bs ++ after) before.length bs.length = bs := by
  simp [memRead]

theorem be16_append_put16 (before : List Byte) (v : Half) (after : List Byte) :
    be16 (before ++ put16 v ++ after) before.length = v :=
  (memRead_eq_put16_iff (by simp)).1 (memRead_append before (put16 v) after)

/-- The terminator of a valid name is its last byte, wherever the name stands. -/
theorem findZero_of_validName {n : List Byte} (h : ValidName n) (before after : List Byte) :
    findZero (before ++ n ++ after) before.length = .ok (before.length + (n.length - 1)) := by
  obtain ⟨hlen, hlast, hinner⟩ := h
  have hbyte : ∀ k, k < n.length → (before ++ n ++ after)[before.length + k]? = n[k]? := fun k hk => by
    rw [List.append_assoc, List.getElem?_append_right (by omega), Nat.add_sub_cancel_left, List.getElem?_append_left hk]
  refine findZero_eq_ok.2 ⟨by omega, by rw [hbyte _ (by omega), hlast], fun i hi hlt => ?_⟩
  obtain ⟨k, rfl⟩ := Nat.exists_eq_add_of_le hi
  rw [hbyte k (by omega)]
  exact hinner k (by omega)

/-- A question with a valid name decodes where it was encoded. -/
theorem questionDecode_questionEncode {q : Question} (h : ValidName q.qname) (before after : List Byte) :
    questionDecode (before ++ questionEncode q ++ after) before.length =
      .ok (q, before.length + q.qname.length + 4) := by
  obtain ⟨n, qtype, qclass⟩ := q
  have hlen : 1 ≤ n.length := h.1
  have hbuf : before ++ questionEncode ⟨n, qtype, qclass⟩ ++ after =
      before ++ n ++ (put16 qtype ++ put16 qclass ++ after) := by simp [questionEncode]
  have hz := findZero_of_validName h before (put16 qtype ++ put16 qclass ++ after)
  have hname := memRead_append before n (put16 qtype ++ put16 qclass ++ after)
  have hqtype := be16_append_put16 (before ++ n) qtype (put16 qclass ++ after)
  have hqclass := be16_append_put16 (before ++ n ++ put16 qtype) qclass after
  simp only [List.append_assoc, List.length_append, put16_length] at hbuf hz hname hqtype hqclass
  simp only [List.append_assoc, hbuf]
  refine questionDecode_eq_ok.2 ⟨_, hz, by simp; omega, by omega, ?_⟩
  have e0 : before.length + (n.length - 1) - before.length + 1 = n.length := by omega
  have e1 : before.length + (n.length - 1) + 1 = before.length + n.length := by omega
  have e3 : before.length + (n.length - 1) + 3 = before.length + (n.length + 2) := by omega
  rw [e0, e1, e3, hname, hqtype, hqclass]

/-- Q_DEC where QuestionDecode answers a question. -/
theorem exec_qDec_of_decode {src : OffsetSource} {imm16 : Half} {s : State} {buf : List Byte} {q : Question} {m : Nat}
    (hw : s.allWritten (offsetReads src) = true) (hb : s.inputBytes = some buf)
    (hd : questionDecode buf (effOff src imm16 s) = .ok (q, m)) :
    exec (.qDec src imm16) s = .next (({ s with qrec := q, next := BitVec.ofNat 16 m } : State).succeed
      (qrecRegs ++ [.next])) := by
  rw [exec_qDec_eq hw hb, hd]

/-- Q_ENC succeeds for a valid name only, and then RBYTES is the question's wire form. -/
theorem exec_qEnc_success {s t : State} (hw : s.allWritten qrecRegs = true) (ht : exec .qEnc s = .next t)
    (h0 : t.status = 0) :
    ValidName s.qrec.qname ∧ t = ({ s with rbytes := questionEncode s.qrec } : State).succeed [.rbytes] := by
  by_cases h : validName s.qrec.qname = true
  · rw [exec_qEnc_of_valid hw h] at ht
    cases ht
    exact ⟨validName_iff.1 h, rfl⟩
  · rw [exec_qEnc_of_invalid hw h] at ht
    cases ht
    exact absurd h0 ErrorCode.malformedName.code_ne_zero

/-! The round trips through the host. -/

/-- After `host.load` the operands of a decode at an immediate offset are written, and the input is the bytes loaded. -/
theorem runMove_load_operands {bs : List Byte} {s u : State} (h : s.Inv) (hu : runMove (.load bs) s = .next u) :
    u.allWritten (offsetReads .imm) = true ∧ u.inputBytes = some bs ∧ bs.length ≤ 65535 := by
  obtain ⟨-, hsize, -⟩ := Config.wf_iff.1 h.config
  obtain ⟨hlen, -⟩ := hostLoad_eq_next.1 hu
  obtain ⟨t, ht, -, hinput, -, -, hwritten⟩ := (hostLoadResult s bs h.config).1 hlen
  obtain rfl : t = u := Host.Outcome.next.inj (ht.symm.trans hu)
  exact ⟨State.allWritten_iff.2 (by simp [offsetReads, hwritten]), hinput, hlen.trans hsize⟩

theorem header_roundTrip_through_host {s t u : State} (h : s.Inv) (hw : s.allWritten hdrRegs = true)
    (ht : exec .hdrEnc s = .next t) (hu : runMove (.load t.rbytes) t = .next u) :
    ∃ v, exec (.hdrDec .imm 0) u = .next v ∧ v.status = 0 ∧ v.hdr = s.hdr ∧ v.next = 12 := by
  obtain ⟨hwu, hb, -⟩ := runMove_load_operands (exec_keeps_inv h ht) hu
  rw [exec_hdrEnc_eq hw] at ht
  cases ht
  have hd := headerDecode_headerEncode s.hdr []
  rw [List.append_nil] at hd
  exact ⟨_, exec_hdrDec_of_decode hwu hb hd, rfl, rfl, rfl⟩

theorem question_roundTrip_through_host {s t u : State} (h : s.Inv) (hw : s.allWritten qrecRegs = true)
    (ht : exec .qEnc s = .next t) (h0 : t.status = 0) (hu : runMove (.load t.rbytes) t = .next u) :
    ∃ v, exec (.qDec .imm 0) u = .next v ∧ v.status = 0 ∧ v.qrec = s.qrec ∧
      v.next.toNat = s.qrec.qname.length + 4 := by
  obtain ⟨hwu, hb, hsize⟩ := runMove_load_operands (exec_keeps_inv h ht) hu
  obtain ⟨hvalid, rfl⟩ := exec_qEnc_success hw ht h0
  have hd := questionDecode_questionEncode hvalid [] []
  rw [List.append_nil, List.nil_append, List.length_nil, Nat.zero_add] at hd
  rw [State.succeed_rbytes, questionEncode_length] at hsize
  exact ⟨_, exec_qDec_of_decode hwu hb hd, rfl, rfl, Nat.mod_eq_of_lt (by omega)⟩

/-- Settles O53: what `host.load` makes the input is exactly an encoded record, with nothing after it. -/
theorem roundTripThroughTheHost : Obligations.RoundTripThroughTheHost :=
  fun _ h => ⟨fun _ _ hw ht hu => header_roundTrip_through_host h hw ht hu,
    fun _ _ hw ht h0 hu => question_roundTrip_through_host h hw ht h0 hu⟩

end Sys2Proof.Machine
end

section
/-! PROOF. The question decoder and encoder (42_question.md R96 to R99, R101, R102): the terminator is unique and ends a valid
name, encoding inverts decoding, and the commands Q_DEC and Q_ENC (O34, O35, O36, O40, O41). -/

namespace Sys2Proof.Machine

theorem IsTerminator.findZero_eq {buf : List Byte} {o z : Nat} (h : IsTerminator buf o z) : findZero buf o = .ok z :=
  findZero_eq_ok.2 h

theorem getElem?_memRead {buf : List Byte} {a n k : Nat} (h : k < n) : (memRead buf a n)[k]? = buf[a + k]? := by
  rw [memRead, List.getElem?_take_of_lt h, List.getElem?_drop]

/-- The bytes through a terminator that stands inside the input. -/
theorem IsTerminator.memRead_length {buf : List Byte} {o z : Nat} (h : IsTerminator buf o z) :
    (memRead buf o (z - o + 1)).length = z - o + 1 := by
  obtain ⟨hoz, hzero, -⟩ := h
  obtain ⟨hz, -⟩ := List.getElem?_eq_some_iff.1 hzero
  exact Machine.memRead_length (by omega)

/-- The bytes through the first zero byte are a valid name (R99). -/
theorem IsTerminator.validName {buf : List Byte} {o z : Nat} (h : IsTerminator buf o z) :
    ValidName (memRead buf o (z - o + 1)) := by
  have hlen := h.memRead_length
  obtain ⟨hoz, hzero, hbefore⟩ := h
  rw [ValidName, hlen, Nat.add_sub_cancel]
  refine ⟨by omega, ?_, fun i hi => ?_⟩
  · rwa [getElem?_memRead (by omega), Nat.add_sub_cancel' hoz]
  · rw [getElem?_memRead (by omega)]
    exact hbefore (o + i) (by omega) (by omega)

/-- The last sentence of R99: a name that QuestionDecode returns is valid. -/
theorem validName_of_questionDecode {buf : List Byte} {o m : Nat} {q : Question}
    (h : questionDecode buf o = .ok (q, m)) : ValidName q.qname := by
  obtain ⟨z, hz, -, -, rfl⟩ := questionDecode_eq_ok.1 h
  exact IsTerminator.validName (findZero_eq_ok.1 hz)

/-- Settles O36: the label length 5 of the last example overruns its name, which R99 does not ask about. -/
theorem validNameExactly : Obligations.ValidNameExactly :=
  ⟨fun _ => validName_iff, fun _ _ _ _ h => validName_iff.2 (validName_of_questionDecode h), rfl, fun _ => rfl⟩

/-- Settles O34: NEXT does not wrap, because the offset after the question is at most ILEN. -/
theorem qDecResult : Obligations.QDecResult := by
  intro src imm16 s buf z hb hw hterm hlen
  have hin : z + 5 ≤ buf.length := by rwa [State.inputBytes_length hb]
  have hd := questionDecode_eq_ok.2 ⟨z, hterm.findZero_eq, hin, rfl, rfl⟩
  have hnext : (BitVec.ofNat 16 (z + 5)).toNat = z + 5 := Nat.mod_eq_of_lt (hlen.trans_lt s.ilen.isLt)
  exact ⟨_, exec_qDec_of_decode hw hb hd, (OnlyWrites.qrec ..).succeeded, hterm.memRead_length,
    fun k hk => getElem?_memRead (by omega), be16_toNat .., be16_toNat .., hnext⟩

/-- The wire form of a question (R98) as numbers. -/
theorem numbers_questionEncode (q : Question) :
    numbers (questionEncode q) = numbers q.qname ++ bytes16 q.qtype.toNat ++ bytes16 q.qclass.toNat := by
  simp only [questionEncode, numbers_append, numbers_put16]

/-- Settles O35. -/
theorem qEncResult : Obligations.QEncResult := by
  intro s hw
  by_cases hvalid : ValidName s.qrec.qname
  · exact ⟨_, exec_qEnc_of_valid hw (validName_iff.2 hvalid),
      fun _ => ⟨(OnlyWrites.rbytes ..).succeeded, numbers_questionEncode s.qrec⟩, absurd hvalid⟩
  · exact ⟨_, exec_qEnc_of_invalid hw (mt validName_iff.1 hvalid), fun h => absurd h hvalid,
      fun _ => s.raised .malformedName⟩

/-- Encoding a decoded question gives its bytes: the name, then two reads of two bytes. -/
theorem questionEncode_of_decode {buf : List Byte} {o m : Nat} {q : Question}
    (h : questionDecode buf o = .ok (q, m)) : questionEncode q = memRead buf o (m - o) := by
  obtain ⟨z, hz, hlen, rfl, rfl⟩ := questionDecode_eq_ok.1 h
  have hoz : o ≤ z := (findZero_eq_ok.1 hz).1
  have hqtype : z + 1 = o + (z - o + 1) := by omega
  have hqclass : z + 3 = o + (z - o + 1 + 2) := by omega
  have hall : z + 5 - o = z - o + 1 + 2 + 2 := by omega
  rw [questionEncode, put16_be16 (by omega), put16_be16 (by omega), hqtype, hqclass, hall,
    memRead_add _ _ (z - o + 1 + 2), memRead_add _ _ (z - o + 1)]

/-- Settles O40: no decode answers a name with an interior zero byte. -/
theorem questionRoundTrip : Obligations.QuestionRoundTrip := by
  refine ⟨fun q rest hvalid => ?_, fun _ _ _ _ h => questionEncode_of_decode h, fun q rest i hi hzero hd => ?_⟩
  · simpa using questionDecode_questionEncode hvalid [] rest
  · obtain ⟨-, -, hinner⟩ := validName_of_questionDecode hd
    exact hinner i (by omega) hzero

/-- The offset after a question, by its terminator. -/
theorem questionDecode_next {buf : List Byte} {o m z : Nat} {q : Question} (h : questionDecode buf o = .ok (q, m))
    (hz : IsTerminator buf o z) : m = z + 5 := by
  obtain ⟨z', hz', -, rfl, -⟩ := questionDecode_eq_ok.1 h
  cases hz.findZero_eq.symm.trans hz'
  rfl

/-- Settles O41: to each of the two questions the other is just what stands before or after it. -/
theorem questionOffsetAdvance : Obligations.QuestionOffsetAdvance := by
  refine ⟨fun buf o m z q hd hz => ?_, fun q₁ q₂ before after hvalid₁ hvalid₂ => ⟨?_, ?_⟩⟩
  · have hm := questionDecode_next hd hz
    have hoz : o ≤ z := hz.1
    omega
  · simpa using questionDecode_questionEncode hvalid₁ before (questionEncode q₂ ++ after)
  · simpa [Nat.add_assoc] using questionDecode_questionEncode hvalid₂ (before ++ questionEncode q₁) after

end Sys2Proof.Machine
end

section
/-! PROOF. GetName (42_question.md R100) reads a name as labels or raises: its loop against the label sequence, one round a
label, and the command Q_NAME (R105; O37, O38, O39). -/

namespace Sys2Proof.Machine

/-! Label sequences, label by label. -/

theorem readsAs_nil {n : List Byte} : ReadsAs n [] ↔ ∃ rest, n = 0 :: rest := by
  simp [ReadsAs, labelBytes]

theorem readsAs_cons {n label : List Byte} {labels : List (List Byte)} :
    ReadsAs n (label :: labels) ↔ (1 ≤ label.length ∧ label.length ≤ 255) ∧
      ∃ tail, n = BitVec.ofNat 8 label.length :: (label ++ tail) ∧ ReadsAs tail labels := by
  simp only [ReadsAs, labelBytes, List.forall_mem_cons, List.flatMap_cons, List.cons_append, List.append_assoc]
  constructor
  · rintro ⟨⟨hlabel, hlabels⟩, rest, rfl⟩
    exact ⟨hlabel, _, rfl, hlabels, rest, rfl⟩
  · rintro ⟨hlabel, _, rfl, hlabels, rest, rfl⟩
    exact ⟨⟨hlabel, hlabels⟩, rest, rfl⟩

/-- The text of the labels read so far and one more: what a round of GetName makes of it. -/
theorem dottedText_concat (dot : Bool) (labels : List (List Byte)) (label : List Byte) :
    dottedText dot (labels ++ [label]) =
      if dot then dottedText dot labels ++ label ++ [dotByte]
      else if labels.isEmpty then label else dottedText dot labels ++ [dotByte] ++ label := by
  cases dot with
  | true => simp [dottedText, dotByte]
  | false =>
    simp only [dottedText, dotByte, Bool.false_eq_true, if_false]
    induction labels with
    | nil => simp
    | cons first labels ih =>
      cases labels with
      | nil => simp [List.intercalate_cons_cons]
      | cons second labels => simpa [List.intercalate_cons_cons] using ih

/-! The rounds of GetName's loop. -/

/-- The rest of a name from a byte inside it: the byte, and what follows. -/
theorem drop_eq_inputByte_cons {n : List Byte} {p : Nat} (h : p < n.length) :
    n.drop p = inputByte n p :: n.drop (p + 1) := by
  rw [inputByte, List.getD_eq_getElem _ _ h]
  exact List.drop_eq_getElem_cons h

theorem inside_of_drop_eq_cons {n tail : List Byte} {p : Nat} {b : Byte} (h : n.drop p = b :: tail) :
    p < n.length ∧ inputByte n p = b ∧ n.drop (p + 1) = tail := by
  have hp : p < n.length := by
    by_contra houtside
    rw [List.drop_eq_nil_of_le (by omega)] at h
    cases h
  rw [drop_eq_inputByte_cons hp] at h
  exact ⟨hp, List.cons.inj h⟩

/-- At a zero length byte the text so far is the answer. -/
theorem getNameLoop_of_zero {n rest : List Byte} {p : Nat} (h : n.drop p = 0 :: rest) (dot : Bool) (fuel : Nat)
    (out : List Byte) (first : Bool) : getNameLoop dot n (fuel + 1) p out first = .ok out := by
  obtain ⟨hp, hbyte, -⟩ := inside_of_drop_eq_cons h
  rw [getNameLoop, if_neg (by omega), hbyte]
  rfl

/-- A label inside the name is added to the text so far. -/
theorem getNameLoop_of_label {n label tail : List Byte} {p : Nat} (hpos : 1 ≤ label.length) (hmax : label.length ≤ 255)
    (h : n.drop p = BitVec.ofNat 8 label.length :: (label ++ tail)) (dot : Bool) (fuel : Nat)
    (labels : List (List Byte)) :
    getNameLoop dot n (fuel + 1) p (dottedText dot labels) labels.isEmpty =
      getNameLoop dot n fuel (p + 1 + label.length) (dottedText dot (labels ++ [label])) (labels ++ [label]).isEmpty := by
  obtain ⟨hp, hbyte, htail⟩ := inside_of_drop_eq_cons h
  have hlength : (inputByte n p).toNat = label.length := by
    rw [hbyte]
    exact Nat.mod_eq_of_lt (by omega)
  have hfits : p + 1 + label.length ≤ n.length := by
    have := congrArg List.length htail
    rw [List.length_drop, List.length_append] at this
    omega
  have hlabel : memRead n (p + 1) label.length = label := by rw [memRead, htail, List.take_left]
  have hnotFirst : (labels ++ [label]).isEmpty = false := by simp
  rw [getNameLoop, hlength, if_neg (by omega), if_neg (by omega), if_neg (by omega), hlabel, dottedText_concat, hnotFirst]

/-- From where a name reads as labels, the loop adds their text to that of the labels before. -/
theorem getNameLoop_of_readsAs {n : List Byte} {labels : List (List Byte)} {p fuel : Nat}
    (h : ReadsAs (n.drop p) labels) (hfuel : n.length < fuel + p) (dot : Bool) (before : List (List Byte)) :
    getNameLoop dot n fuel p (dottedText dot before) before.isEmpty = .ok (dottedText dot (before ++ labels)) := by
  induction labels generalizing p fuel before with
  | nil =>
    obtain ⟨rest, hrest⟩ := readsAs_nil.1 h
    have hp := (inside_of_drop_eq_cons hrest).1
    obtain ⟨fuel, rfl⟩ : ∃ k, fuel = k + 1 := ⟨fuel - 1, by omega⟩
    rw [getNameLoop_of_zero hrest, List.append_nil]
  | cons label labels ih =>
    obtain ⟨⟨hpos, hmax⟩, tail, htail, hlabels⟩ := readsAs_cons.1 h
    obtain ⟨hp, -, hafter⟩ := inside_of_drop_eq_cons htail
    obtain ⟨fuel, rfl⟩ : ∃ k, fuel = k + 1 := ⟨fuel - 1, by omega⟩
    have hnext : ReadsAs (n.drop (p + 1 + label.length)) labels := by rwa [← List.drop_drop, hafter, List.drop_left]
    rw [getNameLoop_of_label hpos hmax htail, ih hnext (by omega) (before ++ [label]), List.append_assoc,
      List.singleton_append]

/-- Where the loop answers a text, the name reads as labels from there. -/
theorem readsAs_of_getNameLoop {dot : Bool} {n : List Byte} {fuel p : Nat} {out text : List Byte} {first : Bool}
    (h : getNameLoop dot n fuel p out first = .ok text) : ∃ labels, ReadsAs (n.drop p) labels := by
  induction fuel generalizing p out first with
  | zero => cases h
  | succ fuel ih =>
    rw [getNameLoop] at h
    split at h
    · cases h
    · next hp =>
      have hdrop := drop_eq_inputByte_cons (Nat.not_le.1 hp)
      split at h
      · next hzero =>
        have hbyte : inputByte n p = 0 := BitVec.eq_of_toNat_eq hzero
        exact ⟨[], readsAs_nil.2 ⟨n.drop (p + 1), by rw [hdrop, hbyte]⟩⟩
      · split at h
        · cases h
        · obtain ⟨labels, hlabels⟩ := ih h
          have hlabel : (memRead n (p + 1) (inputByte n p).toNat).length = (inputByte n p).toNat :=
            memRead_length (by omega)
          have hbyte := (inputByte n p).isLt
          refine ⟨memRead n (p + 1) (inputByte n p).toNat :: labels, readsAs_cons.2 ⟨by omega, _, ?_, hlabels⟩⟩
          rw [hlabel, BitVec.ofNat_toNat, BitVec.setWidth_eq, hdrop, memRead,
            ← List.drop_drop (i := (inputByte n p).toNat), List.take_append_drop]

/-- GetName answers exactly the dotted text of the labels a name reads as. -/
theorem getName_eq_ok {dot : Bool} {n text : List Byte} :
    getName dot n = .ok text ↔ ∃ labels, ReadsAs n labels ∧ text = dottedText dot labels := by
  have hread {labels} (h : ReadsAs n labels) : getName dot n = .ok (dottedText dot labels) := by
    have hloop := getNameLoop_of_readsAs (n := n) (p := 0) (fuel := n.length + 1) h (by omega) dot []
    cases dot <;> exact hloop
  constructor
  · intro h
    obtain ⟨labels, hlabels⟩ := readsAs_of_getNameLoop h
    exact ⟨labels, hlabels, Except.ok.inj (h.symm.trans (hread hlabels))⟩
  · rintro ⟨labels, hlabels, rfl⟩
    exact hread hlabels

/-- Where a name reads as no labels, GetName raises. -/
theorem getName_eq_malformedName {dot : Bool} {n : List Byte} (h : ¬∃ labels, ReadsAs n labels) :
    getName dot n = .error .malformedName := by
  cases hname : getName dot n with
  | error e => rw [getName_error hname]
  | ok text =>
    obtain ⟨labels, hlabels, -⟩ := getName_eq_ok.1 hname
    exact absurd ⟨labels, hlabels⟩ h

/-! The command. -/

/-- Q_NAME where GetName answers a text. -/
theorem exec_qName_of_text {s : State} {text : List Byte} (hw : s.allWritten [.qname] = true)
    (h : getName s.config.getnameTrailingDot s.qrec.qname = .ok text) :
    exec .qName s = .next (({ s with rbytes := text } : State).succeed [.rbytes]) := by
  rw [exec_qName_eq hw, h]

/-- Q_NAME where GetName raises. -/
theorem exec_qName_of_error {s : State} {e : ErrorCode} (hw : s.allWritten [.qname] = true)
    (h : getName s.config.getnameTrailingDot s.qrec.qname = .error e) : exec .qName s = .next (s.raise e) := by
  rw [exec_qName_eq hw, h]

/-- Settles O37. -/
theorem qNameResult : Obligations.QNameResult := fun _ labels hw hlabels =>
  ⟨_, exec_qName_of_text hw (getName_eq_ok.2 ⟨labels, hlabels, rfl⟩), (OnlyWrites.rbytes ..).succeeded, rfl⟩

/-- Settles O38. -/
theorem qNameMalformed : Obligations.QNameMalformed := fun s hw h =>
  ⟨_, exec_qName_of_error hw (getName_eq_malformedName h), s.raised .malformedName⟩

/-! The length of the text (R105). -/

/-- With a dot after it, a label's text is as long as the label with its length byte. -/
theorem dottedText_true_length (labels : List (List Byte)) :
    (dottedText true labels).length = (labelBytes labels).length := by
  simp [dottedText, labelBytes, List.length_flatMap]

/-- Without the trailing dot, the text of at least one label is one byte shorter. -/
theorem dottedText_false_length {labels : List (List Byte)} (h : labels ≠ []) :
    (dottedText false labels).length + 1 = (dottedText true labels).length := by
  induction labels with
  | nil => exact absurd rfl h
  | cons label labels ih =>
    cases labels with
    | nil => simp [dottedText]
    | cons next labels =>
      have hrest := ih (List.cons_ne_nil next labels)
      have hfalse : dottedText false (label :: next :: labels) = label ++ [0x2E] ++ dottedText false (next :: labels) :=
        List.intercalate_cons_cons
      have htrue : dottedText true (label :: next :: labels) = label ++ [0x2E] ++ dottedText true (next :: labels) := rfl
      rw [hfalse, htrue, List.length_append, Nat.add_assoc, hrest, ← List.length_append]

/-- A valid name that reads as labels is their label sequence and its zero-length label, with nothing after it. -/
theorem ValidName.eq_labelBytes {n : List Byte} {labels : List (List Byte)} (hvalid : ValidName n)
    (h : ReadsAs n labels) : n = labelBytes labels ++ [0] := by
  obtain ⟨-, -, hinner⟩ := hvalid
  obtain ⟨-, rest, rfl⟩ := h
  cases rest with
  | nil => rfl
  | cons b rest => exact absurd (by simp) (hinner (labelBytes labels).length (by simp))

theorem ValidName.getName_eq_ok {n text : List Byte} {dot : Bool} (hvalid : ValidName n)
    (h : getName dot n = .ok text) : ∃ labels, n = labelBytes labels ++ [0] ∧ text = dottedText dot labels := by
  obtain ⟨labels, hlabels, htext⟩ := Machine.getName_eq_ok.1 h
  exact ⟨labels, hvalid.eq_labelBytes hlabels, htext⟩

/-- Settles O39: the root name is the valid name that reads as no label, the one whose text loses no dot. -/
theorem qNameTextLength : Obligations.QNameTextLength := by
  refine fun n text hvalid => ⟨fun htext => ?_, fun htext => ?_⟩
  · obtain ⟨labels, rfl, rfl⟩ := hvalid.getName_eq_ok htext
    simp [dottedText_true_length]
  · obtain ⟨labels, rfl, rfl⟩ := hvalid.getName_eq_ok htext
    cases labels with
    | nil => exact ⟨fun _ => rfl, absurd rfl⟩
    | cons label labels =>
      have hlen := dottedText_false_length (List.cons_ne_nil label labels)
      rw [dottedText_true_length] at hlen
      rw [List.length_append, List.length_singleton, ← hlen]
      refine ⟨fun hroot => ?_, fun _ => rfl⟩
      have hone := congrArg List.length hroot
      rw [List.length_append, List.length_singleton] at hone
      omega

end Sys2Proof.Machine
end

section
/-! PROOF. The record encoder (43_record.md): the dotted-quad parser reads every dotted quad (R107, R108), and the commands
RR_CONS and RR_ENC (R109 to R115; O42, O44, O45). -/

namespace Sys2Proof.Machine

/-! The dotted-quad parser, segment by segment. -/

/-- The accumulation of ParseOctet from any start: it answers exactly on digits, with their decimal value. -/
theorem decimalValue_eq_some {t : List Byte} {v n : Nat} :
    decimalValue t v = some n ↔
      (∀ c ∈ t, 0x30 ≤ c.toNat ∧ c.toNat ≤ 0x39) ∧ n = t.foldl (fun n c => n * 10 + (c.toNat - 0x30)) v := by
  induction t generalizing v with
  | nil => simp [decimalValue, eq_comm]
  | cons c cs ih =>
    have hdigit : (c < 0x30 ∨ 0x39 < c) ↔ ¬(0x30 ≤ c.toNat ∧ c.toNat ≤ 0x39) := by
      simp only [BitVec.lt_def, BitVec.reduceToNat]
      omega
    rw [decimalValue, List.forall_mem_cons, List.foldl_cons, and_assoc]
    split
    · next h => simp [hdigit.1 h]
    · next h => rw [ih, and_iff_right (not_not.1 (mt hdigit.2 h))]

/-- ParseOctet answers a segment's octet, which fits a byte. -/
theorem parseOctet_of_isOctet {t : List Byte} {v : Nat} (h : IsOctet t v) :
    ∃ b, parseOctet t = .ok b ∧ b.toNat = v := by
  obtain ⟨hne, hdigits, hv, hle⟩ := h
  refine ⟨BitVec.ofNat 8 v, ?_, Nat.mod_eq_of_lt (by omega)⟩
  rw [parseOctet, if_neg hne, decimalValue_eq_some.2 ⟨hdigits, hv⟩]
  exact if_neg (by omega)

/-- No digit is the separator. -/
theorem IsOctet.dot_not_mem {t : List Byte} {v : Nat} (h : IsOctet t v) : 0x2E ∉ t := by
  obtain ⟨-, hdigits, -, -⟩ := h
  exact fun hmem => absurd (hdigits _ hmem).1 (by decide)

theorem splitDots_of_dot_not_mem {t : List Byte} (h : 0x2E ∉ t) : splitDots t = [t] := by
  induction t with
  | nil => rfl
  | cons c cs ih =>
    obtain ⟨hc, hcs⟩ := not_or.1 (mt List.mem_cons.2 h)
    rw [splitDots, if_neg (Ne.symm hc), ih hcs]

/-- The first separator ends the first segment. -/
theorem splitDots_append_dot {t : List Byte} (h : 0x2E ∉ t) (rest : List Byte) :
    splitDots (t ++ 0x2E :: rest) = t :: splitDots rest := by
  induction t with
  | nil => rfl
  | cons c cs ih =>
    obtain ⟨hc, hcs⟩ := not_or.1 (mt List.mem_cons.2 h)
    rw [List.cons_append, splitDots, if_neg (Ne.symm hc), ih hcs]

/-- ParseDottedQuad answers the octets of a dotted quad in text order. -/
theorem parseDottedQuad_of_isDottedQuad {s : List Byte} {v : List Nat} (h : IsDottedQuad s v) :
    ∃ d, parseDottedQuad s = .ok d ∧ numbers d = v := by
  obtain ⟨t₀, t₁, t₂, t₃, v₀, v₁, v₂, v₃, rfl, h₀, h₁, h₂, h₃, rfl⟩ := h
  have hsplit : splitDots (t₀ ++ 0x2E :: (t₁ ++ 0x2E :: (t₂ ++ 0x2E :: t₃))) = [t₀, t₁, t₂, t₃] := by
    rw [splitDots_append_dot h₀.dot_not_mem, splitDots_append_dot h₁.dot_not_mem, splitDots_append_dot h₂.dot_not_mem,
      splitDots_of_dot_not_mem h₃.dot_not_mem]
  obtain ⟨b₀, hb₀, rfl⟩ := parseOctet_of_isOctet h₀
  obtain ⟨b₁, hb₁, rfl⟩ := parseOctet_of_isOctet h₁
  obtain ⟨b₂, hb₂, rfl⟩ := parseOctet_of_isOctet h₂
  obtain ⟨b₃, hb₃, rfl⟩ := parseOctet_of_isOctet h₃
  refine ⟨[b₀, b₁, b₂, b₃], ?_, rfl⟩
  rw [parseDottedQuad, hsplit]
  simp only [parseOctets, hb₀, hb₁, hb₂, hb₃]
  rfl

/-! The commands. -/

/-- RR_CONS where RecordConstruct answers a record. -/
theorem exec_rrCons_of_construct {s : State} {r : Record} (hw : s.allWritten [.ttl, .addr] = true)
    (hr : recordConstruct s.config s.ttl s.addr = .ok r) :
    exec .rrCons s = .next (({ s with rrec := r } : State).succeed rrecRegs) := by
  rw [exec_rrCons_eq hw, hr]

/-- Settles O42. -/
theorem rrConsResult : Obligations.RrConsResult := by
  intro s v hw hquad
  obtain ⟨d, hd, hv⟩ := parseDottedQuad_of_isDottedQuad hquad
  exact ⟨_, exec_rrCons_of_construct hw (recordConstruct_eq_ok.2 ⟨d, hd, rfl⟩), (OnlyWrites.rrec ..).succeeded,
    rfl, rfl, rfl, rfl, rfl, hv⟩

/-- The wire form of a record (R111) as numbers. -/
theorem numbers_recordEncode (r : Record) :
    numbers (recordEncode r) = numbers r.rname ++ bytes16 r.rtype.toNat ++ bytes16 r.rclass.toNat ++
      bytes32 r.rttl.toNat ++ bytes16 r.rdlen.toNat ++ numbers r.rdata := by
  simp only [recordEncode, numbers_append, numbers_put16, numbers_put32]

/-- Settles O44. -/
theorem rrEncResult : Obligations.RrEncResult := by
  intro s hw
  by_cases hlen : s.rrec.rdlen.toNat = s.rrec.rdata.length
  · exact ⟨_, exec_rrEnc_of_match hw hlen,
      fun _ => ⟨(OnlyWrites.rbytes ..).succeeded, numbers_recordEncode s.rrec⟩, absurd hlen⟩
  · exact ⟨_, exec_rrEnc_of_mismatch hw hlen, fun h => absurd h hlen, fun _ => s.raised .lengthMismatch⟩

/-! RR_CONS followed by RR_ENC (R115). -/

/-- RR_CONS succeeds only where RecordConstruct answers a record, and then RREC is that record. -/
theorem exec_rrCons_success {s t : State} (hw : s.allWritten [.ttl, .addr] = true) (ht : exec .rrCons s = .next t)
    (h0 : t.status = 0) :
    ∃ r, recordConstruct s.config s.ttl s.addr = .ok r ∧ t = ({ s with rrec := r } : State).succeed rrecRegs := by
  rw [exec_rrCons_eq hw] at ht
  cases hr : recordConstruct s.config s.ttl s.addr with
  | error e =>
    rw [hr] at ht
    cases ht
    exact absurd h0 e.code_ne_zero
  | ok r =>
    rw [hr] at ht
    cases ht
    exact ⟨r, rfl, rfl⟩

/-- The result fields of a command that succeeds are written. -/
theorem State.succeed_allWritten (s : State) (ws : List Reg) : (s.succeed ws).allWritten ws = true :=
  State.allWritten_iff.2 fun _ hr hmem => (State.mem_markWritten.1 hmem).2 hr

/-- Settles O45: what RR_CONS writes are just the operands of RR_ENC, and the two lengths agree at 4. -/
theorem constructedRecordLaws : Obligations.ConstructedRecordLaws := by
  intro s t hw ht h0
  obtain ⟨r, hr, rfl⟩ := exec_rrCons_success hw ht h0
  obtain ⟨d, hd, rfl⟩ := recordConstruct_eq_ok.1 hr
  have hdata : d.length = 4 := parseDottedQuad_length hd
  have hpointer : numbers pointerEmit = [0xC0, 0x0C] := rfl
  have hrdlen : bytes16 (4 : Half).toNat = [0x00, 0x04] := rfl
  refine ⟨hdata.symm, hdata, rfl, _, exec_rrEnc_of_match (State.succeed_allWritten ..) hdata.symm, rfl, ?_, ?_⟩
  · simp [pointerEmit, hdata]
  · simp only [State.succeed_rbytes, State.succeed_rrec, numbers_recordEncode, hpointer, hrdlen]

end Sys2Proof.Machine
end

section
/-! PROOF. The big-endian marshaller (44_marshal.md R116 to R118; O46 to O48): the three commands, each as its primitive of
20_memory.md on the state. -/

namespace Sys2Proof.Machine

/-- Settles O46: NEXT does not wrap, because the offset after the two bytes is at most ILEN. -/
theorem beGet16Result : Obligations.BeGet16Result := by
  intro src imm16 s buf hb hw hlen
  have hin : effOff src imm16 s + 2 ≤ buf.length := by rwa [State.inputBytes_length hb]
  have hval : ((be16 buf (effOff src imm16 s)).setWidth 32).toNat = beAt buf (effOff src imm16 s) := by
    rw [BitVec.toNat_setWidth_of_le (by decide), be16_toNat]
  have hnext : (BitVec.ofNat 16 (effOff src imm16 s + 2)).toNat = effOff src imm16 s + 2 :=
    Nat.mod_eq_of_lt (hlen.trans_lt s.ilen.isLt)
  exact ⟨_, exec_beGet16_of_inside hw hb hin, (OnlyWrites.valNext ..).succeeded, hval, hnext⟩

/-- VAL[15:0] is VAL modulo 2^16. -/
theorem toNat_low_half (v : Word) : (v.extractLsb' 0 16).toNat = v.toNat % 2 ^ 16 := by
  rw [BitVec.extractLsb'_toNat, Nat.shiftRight_zero]

/-- Settles O47. -/
theorem bePut16Result : Obligations.BePut16Result := by
  refine fun s hw => ⟨_, exec_bePut16_eq hw, (OnlyWrites.rbytes ..).succeeded, ?_⟩
  rw [State.succeed_rbytes, numbers_put16, toNat_low_half]

/-- Settles O48. -/
theorem bePut32Result : Obligations.BePut32Result :=
  fun s hw => ⟨_, exec_bePut32_eq hw, (OnlyWrites.rbytes ..).succeeded, numbers_put32 s.val⟩

end Sys2Proof.Machine
end

section
/-! PROOF. The error model (60_exceptions.md R120, R126 to R130): a command with its operands written raises one of its own
errors or succeeds, a fault is recorded for an unwritten operand alone and never cleared, and of the errors that apply to a word
the first is reported (O14, O17, O18, O20, O54). -/

namespace Sys2Proof.Machine

/-! How a command ends (R120, R129). -/

/-- A command with its operands written raises one of its own codes or succeeds. -/
theorem exec_raised_or_succeeded {i : Instr} {s t : State} (ho : OperandsWritten i s) (ht : exec i s = .next t) :
    (∃ e : ErrorCode, e.code ∈ statusesOf i ∧ Raised e.code s t) ∨ Succeeded (writeSet i) s t := by
  obtain ⟨e, he, rfl⟩ | ⟨u, hu, rfl⟩ := exec_ends ho ht
  · exact .inl ⟨e, he, s.raised e⟩
  · exact .inr hu.succeeded

/-- Settles O17: no error's code is 0, so STATUS tells a raise from a success. -/
theorem commandsAreAllOrNothing : Obligations.CommandsAreAllOrNothing := by
  intro i s t ho ht
  obtain ⟨e, -, hraised⟩ | hsucc := exec_raised_or_succeeded ho ht
  · exact ⟨fun _ => ⟨hraised.same, hraised.written⟩, fun h0 => absurd (hraised.status.symm.trans h0) e.code_ne_zero⟩
  · exact ⟨fun hne => absurd hsucc.status hne, fun _ => ⟨hsucc.same, hsucc.written⟩⟩

/-- Every command can succeed (R120). -/
theorem zero_mem_statusesOf (i : Instr) : 0 ∈ statusesOf i := by
  cases i <;> exact List.mem_cons_self

/-- Settles O18. -/
theorem statusCodesByCommand : Obligations.StatusCodesByCommand := by
  intro i s t ho ht
  obtain ⟨e, he, hraised⟩ | hsucc := exec_raised_or_succeeded ho ht
  · rw [hraised.status]
    exact he
  · rw [hsucc.status]
    exact zero_mem_statusesOf i

/-! The fault record (R126). -/

/-- A command with its operands written leaves the record as it was. -/
theorem exec_fault_of_written {i : Instr} {s t : State} (ho : OperandsWritten i s) (ht : exec i s = .next t) :
    t.unwrittenOperand = s.unwrittenOperand := by
  obtain ⟨e, -, hraised⟩ | hsucc := exec_raised_or_succeeded ho ht
  · exact hraised.fault
  · exact hsucc.fault

/-- After a command a fault is recorded exactly if one was, or an operand was unwritten. -/
theorem exec_fault_iff {i : Instr} {s t : State} (ht : exec i s = .next t) :
    t.unwrittenOperand = true ↔ s.unwrittenOperand = true ∨ ¬OperandsWritten i s := by
  obtain ⟨hun, rfl⟩ | ⟨ho, -⟩ := exec_cases ht
  · exact ⟨fun _ => .inr hun, fun _ => s.recordFault_unwrittenOperand⟩
  · rw [exec_fault_of_written ho ht, or_iff_left (not_not.2 ho)]

/-- Settles O20. -/
theorem commandsFaultExactlyOnUnwrittenOperands : Obligations.CommandsFaultExactlyOnUnwrittenOperands := by
  intro i s
  obtain ⟨t, ht⟩ := exec_answers i s
  exact ⟨t, ht, exec_fault_iff ht⟩

theorem issue_keeps_fault {w : Word} {s t : State} (ht : issue w s = .next t) (h : s.unwrittenOperand = true) :
    t.unwrittenOperand = true := by
  cases hd : decode w with
  | ok i =>
    rw [issue_ok hd] at ht
    obtain ⟨u, hu, rfl⟩ := logOutcome_eq_next.1 ht
    exact (exec_fault_iff hu).2 (.inl h)
  | error c =>
    rw [issue_illegal hd] at ht
    cases ht
    exact h

/-- `host.set` writes its field alone, which then counts as written. -/
theorem hostSet_onlyWrites {r : Reg} {v : HostValue} {s t : State} (ht : hostSet r v s = .next t) :
    ∃ u, OnlyWrites [r] s u ∧ t = u.markWritten [r] := by
  unfold hostSet at ht
  split at ht
  · cases ht
  · cases v with
    | number n =>
      obtain ⟨w, -, -, -, rfl⟩ := hostSetNumber_eq_next.1 ht
      exact ⟨_, s.storeNumber_onlyWrites n r, rfl⟩
    | bytes bs =>
      obtain ⟨-, -, rfl⟩ := hostSetBytes_eq_next.1 ht
      exact ⟨_, s.storeBytes_onlyWrites bs r, rfl⟩

/-- No move clears the record: a command can only add to it, and the host's own moves, reset among them, keep it. -/
theorem runMove_keeps_fault {m : HostMove} {s t : State} (ht : runMove m s = .next t)
    (h : s.unwrittenOperand = true) : t.unwrittenOperand = true := by
  cases m with
  | command w => exact issue_keeps_fault ht h
  | load bs =>
    obtain ⟨-, rfl⟩ := hostLoad_eq_next.1 ht
    exact h
  | setIbuf index b =>
    obtain ⟨-, rfl⟩ := hostSetIbuf_eq_next.1 ht
    exact h
  | set r v =>
    obtain ⟨u, hu, rfl⟩ := hostSet_onlyWrites ht
    exact hu.fault.trans h
  | readIbuf index =>
    obtain ⟨-, ⟨b, -, rfl⟩ | ⟨-, rfl⟩⟩ := hostReadIbuf_eq_next.1 ht
    · exact h
    · exact h
  | read r =>
    cases ht
    exact h
  | emit =>
    cases ht
    exact h
  | reset =>
    cases ht
    exact h

/-- Settles O14: the step is idle, or makes the host's next move. -/
theorem recordedFaultStays : Obligations.RecordedFaultStays := by
  intro s t ht h
  cases hm : s.host.moves with
  | nil =>
    rw [step_idle hm] at ht
    cases ht
    exact h
  | cons m rest =>
    rw [step_move hm] at ht
    exact runMove_keeps_fault ht h

/-! The order of errors (R127). -/

/-- Issuing a word that decodes is its command, with STATUS logged. -/
theorem runMove_command {w : Word} {i : Instr} {s t : State} (hd : decode w = .ok i) (ht : exec i s = .next t) :
    runMove (.command w) s = .next t.logStatus :=
  (issue_ok hd s).trans (logOutcome_eq_next.2 ⟨t, ht, rfl⟩)

/-- Settles O54: a word that does not decode runs no command; the operands are checked before the command's own checks. -/
theorem firstErrorIsReported : Obligations.FirstErrorIsReported := by
  refine fun w s => ⟨?_, fun i hd => ⟨fun hun => ?_, fun ho => ?_⟩⟩
  · rintro ⟨c, hc⟩
    exact ⟨_, issue_illegal hc s, rfl, rfl⟩
  · refine ⟨_, runMove_command hd (exec_of_unwritten hun), rfl, fun r => ?_⟩
    rw [State.logStatus_value, State.recordFault_value]
  · obtain ⟨t, ht⟩ := exec_answers i s
    have hfault : t.unwrittenOperand = s.unwrittenOperand := exec_fault_of_written ho ht
    exact ⟨_, runMove_command hd ht, statusCodesByCommand i s t ho ht, hfault⟩

end Sys2Proof.Machine
end

section
/-! PROOF. TRUNCATED_INPUT (60_exceptions.md R121): its exact conditions for HDR_DEC, Q_DEC and BE_GET16 (O28). -/

namespace Sys2Proof.Machine

/-- HDR_DEC where fewer than 12 bytes remain. -/
theorem exec_hdrDec_of_outside {src : OffsetSource} {imm16 : Half} {s : State} {buf : List Byte}
    (hw : s.allWritten (offsetReads src) = true) (hb : s.inputBytes = some buf)
    (h : buf.length < effOff src imm16 s + 12) : exec (.hdrDec src imm16) s = .next (s.raise .truncatedInput) := by
  rw [exec_hdrDec_eq hw hb, headerDecode_error.2 ⟨rfl, h⟩]

/-- A question has one terminator at most. -/
theorem IsTerminator.unique {buf : List Byte} {o z z' : Nat} (h : IsTerminator buf o z) (h' : IsTerminator buf o z') :
    z = z' :=
  Except.ok.inj (h.findZero_eq.symm.trans h'.findZero_eq)

/-- QuestionDecode raises when no terminator is followed by four bytes. -/
theorem questionDecode_truncated {buf : List Byte} {o : Nat}
    (h : ∀ z, IsTerminator buf o z → buf.length < z + 5) : questionDecode buf o = .error .truncatedInput := by
  cases hd : questionDecode buf o with
  | error e => rw [questionDecode_error hd]
  | ok qm =>
    obtain ⟨z, hz, hlen, -⟩ := questionDecode_eq_ok.1 hd
    exact absurd (h z (findZero_eq_ok.1 hz)) (Nat.not_lt.2 hlen)

/-- Q_DEC where no terminator is followed by four bytes. -/
theorem exec_qDec_of_truncated {src : OffsetSource} {imm16 : Half} {s : State} {buf : List Byte}
    (hw : s.allWritten (offsetReads src) = true) (hb : s.inputBytes = some buf)
    (h : ∀ z, IsTerminator buf (effOff src imm16 s) z → buf.length < z + 5) :
    exec (.qDec src imm16) s = .next (s.raise .truncatedInput) := by
  rw [exec_qDec_eq hw hb, questionDecode_truncated h]

/-- R121's two conditions for Q_DEC as one: whatever terminator there is, fewer than four bytes follow it. -/
theorem missing_or_short_iff {buf : List Byte} {o n : Nat} :
    ((¬∃ z, IsTerminator buf o z) ∨ ∃ z, IsTerminator buf o z ∧ z + 5 > n) ↔
      ∀ z, IsTerminator buf o z → n < z + 5 := by
  constructor
  · rintro (hnone | ⟨z', hz', hlt⟩) z hz
    · exact absurd ⟨z, hz⟩ hnone
    · rwa [hz.unique hz']
  · intro h
    by_cases hex : ∃ z, IsTerminator buf o z
    · obtain ⟨z, hz⟩ := hex
      exact .inr ⟨z, hz, h z hz⟩
    · exact .inl hex

/-- A command that raises TRUNCATED_INPUT under a condition, and succeeds otherwise, raises it exactly then. -/
theorem truncated_exactly {i : Instr} {s : State} {p : Prop}
    (hraise : p → exec i s = .next (s.raise .truncatedInput))
    (hsucc : ¬p → ∃ t, exec i s = .next t ∧ Succeeded (writeSet i) s t) :
    ∃ t, exec i s = .next t ∧ (p → Raised 1 s t) ∧ (¬p → t.status = 0) := by
  by_cases hp : p
  · exact ⟨_, hraise hp, fun _ => s.raised .truncatedInput, absurd hp⟩
  · obtain ⟨t, ht, hsucc⟩ := hsucc hp
    exact ⟨t, ht, fun h => absurd h hp, fun _ => hsucc.status⟩

/-- Settles O28: outside its condition each command has a result (O29, O34, O46). -/
theorem truncatedInputExactly : Obligations.TruncatedInputExactly := by
  intro src imm16 s buf hb hw
  have hlen : buf.length = s.ilen.toNat := State.inputBytes_length hb
  refine ⟨truncated_exactly (fun h => ?_) (fun h => ?_), ?_, truncated_exactly (fun h => ?_) (fun h => ?_)⟩
  · exact exec_hdrDec_of_outside hw hb (hlen.trans_lt h)
  · obtain ⟨t, ht, hsucc, -⟩ := hdrDecResult src imm16 s buf hb hw (Nat.not_lt.1 h)
    exact ⟨t, ht, hsucc⟩
  · rw [missing_or_short_iff]
    refine truncated_exactly (fun h => ?_) (fun h => ?_)
    · exact exec_qDec_of_truncated hw hb (by rwa [hlen])
    · push Not at h
      obtain ⟨z, hz, hle⟩ := h
      obtain ⟨t, ht, hsucc, -⟩ := qDecResult src imm16 s buf z hb hw hz hle
      exact ⟨t, ht, hsucc⟩
  · exact exec_beGet16_of_outside hw hb (hlen.trans_lt h)
  · obtain ⟨t, ht, hsucc, -⟩ := beGet16Result src imm16 s buf hb hw (Nat.not_lt.1 h)
    exact ⟨t, ht, hsucc⟩

end Sys2Proof.Machine
end

section
/-! PROOF. MALFORMED_ADDRESS (60_exceptions.md R122): the dotted-quad parser answers dotted quads alone, so RR_CONS raises on
any other text (O43). -/

namespace Sys2Proof.Machine

/-- What ParseOctet answers is the value of a decimal segment. -/
theorem isOctet_of_parseOctet {t : List Byte} {b : Byte} (h : parseOctet t = .ok b) : ∃ v, IsOctet t v := by
  unfold parseOctet at h
  split at h
  · cases h
  · next hne =>
    split at h
    · cases h
    · next v hv =>
      obtain ⟨hdigits, hval⟩ := decimalValue_eq_some.1 hv
      split at h
      · cases h
      · next hle => exact ⟨v, hne, hdigits, hval, Nat.not_lt.1 hle⟩

theorem isOctet_of_parseOctets {ts : List (List Byte)} {ds : List Byte} (h : parseOctets ts = .ok ds) :
    ∀ t ∈ ts, ∃ v, IsOctet t v := by
  induction ts generalizing ds with
  | nil => exact nofun
  | cons t ts ih =>
    rw [parseOctets] at h
    split at h
    · cases h
    · next b hb =>
      obtain ⟨ds', hds, -⟩ := exceptMap_eq_ok.1 h
      exact List.forall_mem_cons.2 ⟨isOctet_of_parseOctet hb, ih hds⟩

theorem splitDots_ne_nil (s : List Byte) : splitDots s ≠ [] := by
  cases s with
  | nil => exact List.cons_ne_nil _ _
  | cons c cs =>
    rw [splitDots]
    split
    · exact List.cons_ne_nil _ _
    · split <;> exact List.cons_ne_nil _ _

/-- The segments, joined by the separator, are the text again. -/
theorem intercalate_splitDots (s : List Byte) : List.intercalate [0x2E] (splitDots s) = s := by
  induction s with
  | nil => rfl
  | cons c cs ih =>
    obtain ⟨seg, segs, hsegs⟩ := List.exists_cons_of_ne_nil (splitDots_ne_nil cs)
    rw [hsegs] at ih
    rw [splitDots, hsegs]
    split
    · next hc => rw [List.intercalate_cons_cons, ih, hc]; rfl
    · cases segs with
      | nil => rw [← ih]; rfl
      | cons seg' segs => rw [← ih, List.intercalate_cons_cons, List.intercalate_cons_cons]; rfl

/-- The converse of `parseDottedQuad_of_isDottedQuad`: ParseDottedQuad answers on no other text. -/
theorem isDottedQuad_of_parseDottedQuad {s d : List Byte} (h : parseDottedQuad s = .ok d) :
    ∃ v, IsDottedQuad s v := by
  unfold parseDottedQuad at h
  split at h
  · next hfour =>
    obtain ⟨t₀, t₁, t₂, t₃, hsplit⟩ := List.length_eq_four.1 hfour
    have hoctets := isOctet_of_parseOctets h
    have htext := intercalate_splitDots s
    rw [hsplit] at hoctets htext
    obtain ⟨v₀, h₀⟩ := hoctets t₀ (by simp)
    obtain ⟨v₁, h₁⟩ := hoctets t₁ (by simp)
    obtain ⟨v₂, h₂⟩ := hoctets t₂ (by simp)
    obtain ⟨v₃, h₃⟩ := hoctets t₃ (by simp)
    refine ⟨_, t₀, t₁, t₂, t₃, v₀, v₁, v₂, v₃, ?_, h₀, h₁, h₂, h₃, rfl⟩
    simpa [List.intercalate_cons_cons] using htext.symm
  · cases h

/-- RecordConstruct raises MALFORMED_ADDRESS on a text that is no dotted quad. -/
theorem recordConstruct_malformed {c : Config} {ttl : Word} {s : List Byte} (h : ¬∃ v, IsDottedQuad s v) :
    recordConstruct c ttl s = .error .malformedAddress := by
  cases hr : recordConstruct c ttl s with
  | error e => rw [recordConstruct_error hr]
  | ok r =>
    obtain ⟨d, hd, -⟩ := recordConstruct_eq_ok.1 hr
    exact absurd (isDottedQuad_of_parseDottedQuad hd) h

/-- Settles O43. -/
theorem rrConsMalformed : Obligations.RrConsMalformed := by
  intro s hw h
  refine ⟨_, ?_, s.raised .malformedAddress⟩
  rw [exec_rrCons_eq hw, recordConstruct_malformed h]

end Sys2Proof.Machine
end

section
/-! PROOF. The host's next move and the reset of the core between commands (70_reset_and_hazards.md R140, R141, R150; O8,
O11). -/

namespace Sys2Proof.Machine

/-- Settles O8. -/
theorem stepMakesNextMove : Obligations.StepMakesNextMove := fun _ _ _ hm => step_move hm

/-- Settles O11: the registers are those of State.reset (O10); the parameters, the host and the fault record are carried
over. -/
theorem resetBetweenCommands : Obligations.ResetBetweenCommands := by
  intro s
  obtain ⟨hstatus, hunwritten, hibuf, -⟩ := resetLeaves
  exact ⟨_, rfl, hstatus, hunwritten, hibuf, rfl, rfl, rfl⟩

end Sys2Proof.Machine
end
